-- ==== Sys2Proof/Word.lean ====
section
/-! DEFINITION. The word types of the ports and records (00_scope.md R6, 10_state.md R24 and R25,
30_encoding.md R68). -/

namespace Sys2Proof

/-- One byte of a buffer or of a port lane (`BYTE_WIDTH`, R6). -/
abbrev Byte := BitVec 8

/-- A value to encode or a decoded value (`VALUE_WIDTH`, R6). -/
abbrev Value := BitVec 64

/-- The 4-bit ports `enc_len`, `dec_avail`, `dec_len` and `dec_need` (`LEN_WIDTH`, `AVAIL_WIDTH`, R6). -/
abbrev Count := BitVec 4

/-- A nine-lane byte port, `enc_byte[0..8]` or `dec_byte[0..8]` (R24, R25). -/
abbrev Lanes := Vector Byte 9

/-- The flattened form of a nine-lane port (20_memory.md R42). -/
abbrev Bus := BitVec 72

/-- The request word `REQ` (R68). -/
abbrev ReqWord := BitVec 80

end Sys2Proof
end

