-- ==== Sys2Proof/Syntax.lean ====
section
/-! DEFINITION. The instructions: one constructor for each row of spec/opcode_table.json. -/

namespace Sys2Proof

/-- The operations of the core (30_encoding.md R67) and the prefix-class rows through which the decoder
reads a caller's bytes (R62, R71). A prefix row whose mask leaves bits free carries the prefix byte `p`,
bits 7:0 of the row; a row whose mask fixes all eight bits carries nothing. -/
inductive Instr where
  /-- `ENC(value)`, R100. -/
  | enc (value : Value)
  /-- `DEC(avail, bytes[0..8])`, R130. -/
  | dec (avail : Count) (bytes : Lanes)
  /-- Class 1, prefix 0x00..0x7F, R135. -/
  | pfxC1A (p : Byte)
  /-- Class 1, prefix 0x80..0xBF, R135. -/
  | pfxC1B (p : Byte)
  /-- Class 1, prefix 0xC0..0xDF, R135. -/
  | pfxC1C (p : Byte)
  /-- Class 1, prefix 0xE0..0xEF, R135. -/
  | pfxC1D (p : Byte)
  /-- Class 1, prefix 0xF0, R135. -/
  | pfxC1E
  /-- Class 2, prefix 0xF1, R136. -/
  | pfxC2A
  /-- Class 2, prefix 0xF2..0xF3, R136. -/
  | pfxC2B (p : Byte)
  /-- Class 2, prefix 0xF4..0xF7, R136. -/
  | pfxC2C (p : Byte)
  /-- Class 2, prefix 0xF8, R136. -/
  | pfxC2D
  /-- Class 3, prefix 0xF9, R137. -/
  | pfxC3
  /-- Class 4, prefix 0xFA, R138. -/
  | pfxC4
  /-- Class 5, prefix 0xFB, R139. -/
  | pfxC5
  /-- Class 6, prefix 0xFC, R140. -/
  | pfxC6
  /-- Class 7, prefix 0xFD, R141. -/
  | pfxC7
  /-- Class 8, prefix 0xFE, R142. -/
  | pfxC8
  /-- Class 9, prefix 0xFF, R143. -/
  | pfxC9
  deriving DecidableEq, Repr

end Sys2Proof
end

