-- ==== Sys2Proof/WellFormed.lean ====
section
/-! DEFINITION. Which terms of `Instr` are instructions: a prefix row's operand lies in the row's range
(the "range" of spec/opcode_table.json). Every value of `ENC` and every operand of `DEC` is legal
(30_encoding.md R69, 40_encode.md R115). -/

namespace Sys2Proof

/-- The prefix operand lies in its row's range. -/
def Instr.wf : Instr → Bool
  | .enc _ => true
  | .dec _ _ => true
  | .pfxC1A p => decide (p.toNat ≤ 127)
  | .pfxC1B p => decide (128 ≤ p.toNat ∧ p.toNat ≤ 191)
  | .pfxC1C p => decide (192 ≤ p.toNat ∧ p.toNat ≤ 223)
  | .pfxC1D p => decide (224 ≤ p.toNat ∧ p.toNat ≤ 239)
  | .pfxC1E => true
  | .pfxC2A => true
  | .pfxC2B p => decide (242 ≤ p.toNat ∧ p.toNat ≤ 243)
  | .pfxC2C p => decide (244 ≤ p.toNat ∧ p.toNat ≤ 247)
  | .pfxC2D => true
  | .pfxC3 => true
  | .pfxC4 => true
  | .pfxC5 => true
  | .pfxC6 => true
  | .pfxC7 => true
  | .pfxC8 => true
  | .pfxC9 => true

end Sys2Proof
end

