-- ==== Sys2Proof/Decode.lean ====
section
/-! DEFINITION. From the bits a caller presents to an instruction, and back. Two formats exist
(30_encoding.md): the 80-bit request word `REQ` (R68) and the prefix byte at the front of an input (R62). -/

namespace Sys2Proof

/-! ## Lanes and the flattened bus (20_memory.md R42) -/

/-- Lane i of the port is bits `[8*i+7 : 8*i]` of the bus. -/
def lanesOfBus (b : Bus) : Lanes :=
  #v[b.extractLsb' 0 8, b.extractLsb' 8 8, b.extractLsb' 16 8, b.extractLsb' 24 8, b.extractLsb' 32 8,
    b.extractLsb' 40 8, b.extractLsb' 48 8, b.extractLsb' 56 8, b.extractLsb' 64 8]

/-- The bus of a port: the prefix byte is at bits [7:0]. -/
def busOfLanes (w : Lanes) : Bus :=
  w[8] ++ w[7] ++ w[6] ++ w[5] ++ w[4] ++ w[3] ++ w[2] ++ w[1] ++ w[0]

/-! ## What a caller presents -/

/-- The bits of one instruction: a request word, or the first byte of an input. -/
inductive Fetched where
  | request (word : ReqWord)
  | firstByte (p : Byte)
  deriving DecidableEq, Repr

/-- Why a request word is no instruction. -/
inductive DecodeError where
  /-- `ReservedBitsSet(word)` of 60_exceptions.md R180. -/
  | reservedBitsSet (word : ReqWord)
  deriving DecidableEq, Repr

/-- Every reserved bit of the word is 0: bits [7:1] and [79:72] of an `ENC` word, bits [7:5] of a `DEC`
word (R68). -/
def reservedClear (w : ReqWord) : Bool :=
  if w.getLsbD 0 then w.extractLsb' 5 3 == 0#3
  else w.extractLsb' 1 7 == 0#7 && w.extractLsb' 72 8 == 0#8

/-- The operation of a request word whose reserved bits are 0 (R68). -/
def requestInstr (w : ReqWord) : Instr :=
  if w.getLsbD 0 then .dec (w.extractLsb' 1 4) (lanesOfBus (w.extractLsb' 8 72))
  else .enc (w.extractLsb' 8 64)

/-- R68 and R69: a word with a reserved bit set is malformed, every other word has a meaning. -/
def decodeRequest (w : ReqWord) : Except DecodeError Instr :=
  if reservedClear w then .ok (requestInstr w) else .error (.reservedBitsSet w)

/-- The row of spec/opcode_table.json whose mask and match the prefix byte meets; every prefix meets one
(R62, R64). -/
def decodeFirstByte (p : Byte) : Instr :=
  if p &&& 0x80#8 = 0x00#8 then .pfxC1A p
  else if p &&& 0xC0#8 = 0x80#8 then .pfxC1B p
  else if p &&& 0xE0#8 = 0xC0#8 then .pfxC1C p
  else if p &&& 0xF0#8 = 0xE0#8 then .pfxC1D p
  else if p = 0xF0#8 then .pfxC1E
  else if p = 0xF1#8 then .pfxC2A
  else if p &&& 0xFE#8 = 0xF2#8 then .pfxC2B p
  else if p &&& 0xFC#8 = 0xF4#8 then .pfxC2C p
  else if p = 0xF8#8 then .pfxC2D
  else if p = 0xF9#8 then .pfxC3
  else if p = 0xFA#8 then .pfxC4
  else if p = 0xFB#8 then .pfxC5
  else if p = 0xFC#8 then .pfxC6
  else if p = 0xFD#8 then .pfxC7
  else if p = 0xFE#8 then .pfxC8
  else .pfxC9

/-- The decoder: total, and a rejection carries its name. -/
def decode : Fetched → Except DecodeError Instr
  | .request w => decodeRequest w
  | .firstByte p => .ok (decodeFirstByte p)

/-! ## The encoder of instructions -/

/-- The `REQ` word of `ENC(value)` (R68). -/
def encRequest (v : Value) : ReqWord := 0#8 ++ v ++ 0#8

/-- The `REQ` word of `DEC(avail, bytes)` (R68). -/
def decRequest (a : Count) (w : Lanes) : ReqWord := busOfLanes w ++ 0#3 ++ a ++ 1#1

/-- The bits of an instruction (R62, R68; the "match" column of spec/opcode_table.json). -/
def encode : Instr → Fetched
  | .enc v => .request (encRequest v)
  | .dec a w => .request (decRequest a w)
  | .pfxC1A p => .firstByte p
  | .pfxC1B p => .firstByte p
  | .pfxC1C p => .firstByte p
  | .pfxC1D p => .firstByte p
  | .pfxC1E => .firstByte 0xF0#8
  | .pfxC2A => .firstByte 0xF1#8
  | .pfxC2B p => .firstByte p
  | .pfxC2C p => .firstByte p
  | .pfxC2D => .firstByte 0xF8#8
  | .pfxC3 => .firstByte 0xF9#8
  | .pfxC4 => .firstByte 0xFA#8
  | .pfxC5 => .firstByte 0xFB#8
  | .pfxC6 => .firstByte 0xFC#8
  | .pfxC7 => .firstByte 0xFD#8
  | .pfxC8 => .firstByte 0xFE#8
  | .pfxC9 => .firstByte 0xFF#8

/-- The instruction the decoder reads from a row of `nbits` bits whose bits are `w`, bit 0 the least
significant. The table has rows of 80 bits (request words) and of 8 bits (the first byte of an input, whose
further bytes are 0 and do not take part in selecting the row). Log 16. -/
def decodeTableWord (nbits w : Nat) : Option Instr :=
  if 2 ^ nbits ≤ w then none
  else if nbits = 80 then
    match decode (.request (BitVec.ofNat 80 w)) with
    | .ok i => some i
    | .error _ => none
  else if nbits = 8 then
    match decode (.firstByte (BitVec.ofNat 8 w)) with
    | .ok i => some i
    | .error _ => none
  else none

end Sys2Proof
end

