-- ==== Sys2Proof/Machine/ClassTable.lean ====
section
/-! DEFINITION. The length-class table (10_state.md R22) and the two selectors that read it. -/

namespace Sys2Proof.Machine

/-- The nine length classes (10_state.md R22). -/
inductive LengthClass where
  | c1 | c2 | c3 | c4 | c5 | c6 | c7 | c8 | c9
  deriving DecidableEq, Repr

/-- One row of the table: the value range `LO_k`..`T_k`, the total length, the range of the prefix byte. -/
structure ClassRow where
  lo : Nat
  hi : Nat
  len : Nat
  prefixLo : Nat
  prefixHi : Nat
  deriving DecidableEq, Repr

/-- R22, with `T5` = 2^32 - 1 as 90_conflicts.md C1 resolves it. -/
def classRow : LengthClass → ClassRow
  | .c1 => ⟨0, 240, 1, 0, 240⟩
  | .c2 => ⟨241, 2287, 2, 241, 248⟩
  | .c3 => ⟨2288, 67823, 3, 249, 249⟩
  | .c4 => ⟨67824, 16777215, 4, 250, 250⟩
  | .c5 => ⟨16777216, 4294967295, 5, 251, 251⟩
  | .c6 => ⟨4294967296, 1099511627775, 6, 252, 252⟩
  | .c7 => ⟨1099511627776, 281474976710655, 7, 253, 253⟩
  | .c8 => ⟨281474976710656, 72057594037927935, 8, 254, 254⟩
  | .c9 => ⟨72057594037927936, 18446744073709551615, 9, 255, 255⟩

/-- The total length of a class, which is also its index (R23). -/
def LengthClass.len (k : LengthClass) : Nat := (classRow k).len

/-- The length on a 4-bit port. -/
def LengthClass.count (k : LengthClass) : Count := BitVec.ofNat 4 k.len

/-- `SELECT`, the 9-way class selector: the first upper bound that holds (40_encode.md R101). -/
def selectClass (v : Value) : LengthClass :=
  if v.toNat ≤ (classRow .c1).hi then .c1
  else if v.toNat ≤ (classRow .c2).hi then .c2
  else if v.toNat ≤ (classRow .c3).hi then .c3
  else if v.toNat ≤ (classRow .c4).hi then .c4
  else if v.toNat ≤ (classRow .c5).hi then .c5
  else if v.toNat ≤ (classRow .c6).hi then .c6
  else if v.toNat ≤ (classRow .c7).hi then .c7
  else if v.toNat ≤ (classRow .c8).hi then .c8
  else .c9

/-- `class(P)`, the prefix parser (30_encoding.md R62, 41_decode.md R131). -/
def prefixClass (p : Byte) : LengthClass :=
  if p.toNat ≤ (classRow .c1).prefixHi then .c1
  else if p.toNat ≤ (classRow .c2).prefixHi then .c2
  else if p.toNat ≤ (classRow .c3).prefixHi then .c3
  else if p.toNat ≤ (classRow .c4).prefixHi then .c4
  else if p.toNat ≤ (classRow .c5).prefixHi then .c5
  else if p.toNat ≤ (classRow .c6).prefixHi then .c6
  else if p.toNat ≤ (classRow .c7).prefixHi then .c7
  else if p.toNat ≤ (classRow .c8).prefixHi then .c8
  else .c9

end Sys2Proof.Machine
end

