-- ==== Sys2Proof/Config.lean ====
section
/-! DEFINITION. What an implementation fixes: the parameters of 00_scope.md R6 and R7, and the free
values of the model. The length-class table of 10_state.md R22 is a constant of the core and stands in
Machine/ClassTable.lean. -/

namespace Sys2Proof

/-- `VALUE_WIDTH` of R6. -/
def Config.valueWidth : Nat := 64

/-- `MAX_ENCODED_LEN` of R6; also the least capacity of an encode buffer (20_memory.md R43). -/
def Config.maxEncodedLen : Nat := 9

/-- `MIN_ENCODED_LEN` of R6. -/
def Config.minEncodedLen : Nat := 1

/-- `NUM_CLASSES` of R6. -/
def Config.numClasses : Nat := 9

/-- `BYTE_WIDTH` of R6. -/
def Config.byteWidth : Nat := 8

/-- `LEN_WIDTH` of R6. -/
def Config.lenWidth : Nat := 4

/-- `AVAIL_WIDTH` of R6. -/
def Config.availWidth : Nat := 4

/-- `LATENCY_ENC` of R7: open, and no rule depends on it (70_reset_and_hazards.md R196). Log 15. -/
opaque Config.latencyEnc : Nat

/-- `LATENCY_DEC` of R7: open, and no rule depends on it (R196). Log 15. -/
opaque Config.latencyDec : Nat

/-- FREE VALUE: what lane `lane` of the decoder's window holds at the `draw`-th presentation of a
caller's buffer when no byte of the buffer drives that lane (20_memory.md R44: such lanes "may hold any
value"). DESIGN CHOICE, log 5. -/
opaque Config.undrivenLane (draw lane : Nat) : Byte

end Sys2Proof
end

