-- ==== Sys2Proof/Machine/State.lean ====
section
/-! DEFINITION. The machine's state, the reasons a step can stop, and the state after reset. The core
itself stores nothing (10_state.md R20, R28): State holds the values on its input ports, the callers'
bytes, the operations in flight, the responses, and the model's bookkeeping of R29. The output ports are
functions of the input ports (70_reset_and_hazards.md R190, R191) and stand in Machine/Ports.lean. -/

namespace Sys2Proof.Machine

/-- The callers' bytes (20_memory.md R40): address and byte, addresses strictly rising, no entry equal to
what an unlisted address reads as (`Memory.wf`). Log 3. -/
abbrev Memory := List Host.Cell

/-- A caller's buffer: `len` bytes whose offset 0 is address `base` (R40, R43, R44). -/
structure Buffer where
  base : Nat
  len : Nat
  deriving DecidableEq, Repr

/-- What a caller asks for. -/
inductive Op where
  /-- A request word (30_encoding.md R67, R68). With `out := some b` an `ENC` word is served in the
  caller-buffer view, into `b` (20_memory.md R43); with none, in the port-level view. -/
  | request (word : ReqWord) (out : Option Buffer)
  /-- The encoding of a sequence into one buffer (70_reset_and_hazards.md R197). -/
  | encodeSeq (values : List Value) (out : Buffer)
  /-- One decode of the front of a buffer (20_memory.md R44). -/
  | decodeFrom (input : Buffer)
  /-- The retry protocol of R197: `arrived` bytes of the buffer are there so far. -/
  | retryFrom (input : Buffer) (arrived : Nat)
  /-- The stream protocol of R197, at offset `off`. -/
  | streamFrom (input : Buffer) (off : Nat)
  deriving DecidableEq, Repr

/-- An operation and the caller that issues it (60_exceptions.md R182). -/
structure Call where
  caller : Nat
  op : Op
  deriving DecidableEq, Repr

/-- The values of the encoder's output ports (10_state.md R24, 30_encoding.md R70). -/
structure EncResult where
  len : Count
  bytes : Lanes
  deriving DecidableEq, Repr

/-- The values of the decoder's output ports (10_state.md R25, 30_encoding.md R70). -/
structure DecResult where
  ok : Bool
  value : Value
  len : Count
  need : Count
  deriving DecidableEq, Repr

/-- A response record (30_encoding.md R70). -/
inductive Response where
  /-- `ENC` in the port-level view: `(len, bytes[0..8])`. -/
  | enc (r : EncResult)
  /-- `ENC` in the caller-buffer view: the return value `enc_len` (20_memory.md R43). -/
  | wrote (len : Count)
  /-- `DEC`: `(ok, value, len, need)`. -/
  | dec (r : DecResult)
  deriving DecidableEq, Repr

/-- The model-level faults that `State.fault` records (10_state.md R29). -/
inductive ModelFault where
  /-- `OutBufferTooSmall(cap)` of 60_exceptions.md R179. -/
  | outBufferTooSmall (cap : Nat)
  deriving DecidableEq, Repr

/-- Why a step has no next state. -/
inductive Fault where
  /-- Raised by `step` when operations of two callers in flight use one buffer at the same time: the model
  gives such a schedule no step (70_reset_and_hazards.md R195). Safe: it stops where an implementation goes
  on with some result. Log 8. -/
  | sharedBuffer (used : Buffer)
  deriving DecidableEq, Repr

/-- Why an instruction has no meaning. -/
inductive Refusal where
  /-- Raised by an arm of `exec` whose instruction has no meaning yet; no arm of this model raises it.
  Safe. -/
  | notModelled (mnemonic : String)
  deriving DecidableEq, Repr

structure State where
  /-- Port `enc_value`, the value last driven (10_state.md R24). -/
  encValue : Value
  /-- The caller's buffer attached to the encode (20_memory.md R43); none in the port-level view. The
  model's own field, log 9. -/
  encOut : Option Buffer
  /-- Port `dec_avail`, the value last driven (10_state.md R25). -/
  decAvail : Count
  /-- Ports `dec_byte[0..8]`, the values last driven (10_state.md R25). -/
  decByte : Lanes
  /-- The callers' bytes (20_memory.md R40). -/
  memory : Memory
  /-- The operations in flight at the same time, oldest first (70_reset_and_hazards.md R192, R195). -/
  inFlight : List Call
  /-- The groups of operations the callers issue next (20_memory.md R49). -/
  upcoming : List (List Call)
  /-- The responses so far, oldest first (30_encoding.md R70). -/
  responses : List Response
  /-- Counter that makes each free lane value a fresh one. The model's own field, log 5. -/
  undrivenDraws : Nat
  /-- Bookkeeping of 10_state.md R29; never cleared. -/
  fault : Option ModelFault
  /-- Bookkeeping of 10_state.md R29; never cleared. -/
  refused : Bool
  deriving DecidableEq, Repr

/-- The model's initial state: no fault recorded, not refused, nothing in flight
(70_reset_and_hazards.md R192). The input ports hold 0 until a caller drives them (log 1). -/
def State.reset : State where
  encValue := 0#64
  encOut := none
  decAvail := 0#4
  decByte := #v[0#8, 0#8, 0#8, 0#8, 0#8, 0#8, 0#8, 0#8, 0#8]
  memory := []
  inFlight := []
  upcoming := []
  responses := []
  undrivenDraws := 0
  fault := none
  refused := false

end Sys2Proof.Machine
end

