-- ==== Sys2Proof/Machine/Operands.lean ====
section
/-! DEFINITION. Operand assembly and disassembly (30_encoding.md R61, R66): the encoder's prefix-byte
generator and magnitude packer, the decoder's unpackers. -/

namespace Sys2Proof.Machine

/-! ## Encoder side -/

/-- `PREFIX(k, v)`, the prefix-byte generator (40_encode.md R102). -/
def prefixByte (k : LengthClass) (v : Value) : Byte :=
  match k with
  | .c1 => v.extractLsb' 0 8
  | .c2 => BitVec.ofNat 8 (241 + (v.toNat - 240) / 256)
  | _ => BitVec.ofNat 8 (246 + k.len)

/-- The magnitude field of class k, of which the remaining bytes hold the low `8*(k-1)` bits (R61, R103). -/
def magnitude (k : LengthClass) (v : Value) : Value :=
  match k with
  | .c1 => 0#64
  | .c2 => v - 240#64
  | .c3 => v - 2288#64
  | _ => v

/-- Byte i of `PACK(k, v)`, for 1 ≤ i ≤ k-1: bits `[8*(k-1-i)+7 : 8*(k-1-i)]` of the field (R61, R103). -/
def packByte (k : LengthClass) (v : Value) (i : Nat) : Byte :=
  (magnitude k v).extractLsb' (8 * (k.len - 1 - i)) 8

/-- Lane i of the encoder's output; lanes at index ≥ k are driven 0x00 (R100, R114). -/
def encLane (k : LengthClass) (v : Value) (i : Nat) : Byte :=
  if i = 0 then prefixByte k v else if i < k.len then packByte k v i else 0x00#8

/-- The nine lanes of the encoder's output for class k. -/
def encLanes (k : LengthClass) (v : Value) : Lanes :=
  #v[encLane k v 0, encLane k v 1, encLane k v 2, encLane k v 3, encLane k v 4, encLane k v 5,
    encLane k v 6, encLane k v 7, encLane k v 8]

/-! ## Decoder side -/

/-- `{b1, b2, ...}`: bytes read with the most significant first (20_memory.md R41). -/
def bigEndian (bytes : List Byte) : Nat :=
  bytes.foldl (fun acc b => acc * 256 + b.toNat) 0

/-- Class 1: the prefix itself (41_decode.md R135). -/
def unpackC1 (w : Lanes) : Value := BitVec.ofNat 64 w[0].toNat

/-- Class 2 (R136). -/
def unpackC2 (w : Lanes) : Value := BitVec.ofNat 64 ((w[0].toNat - 241) * 256 + w[1].toNat + 240)

/-- Class 3 (R137). -/
def unpackC3 (w : Lanes) : Value := BitVec.ofNat 64 (2288 + 256 * w[1].toNat + w[2].toNat)

/-- Class 4 (R138). -/
def unpackC4 (w : Lanes) : Value := BitVec.ofNat 64 (bigEndian [w[1], w[2], w[3]])

/-- Class 5 (R139). -/
def unpackC5 (w : Lanes) : Value := BitVec.ofNat 64 (bigEndian [w[1], w[2], w[3], w[4]])

/-- Class 6 (R140). -/
def unpackC6 (w : Lanes) : Value := BitVec.ofNat 64 (bigEndian [w[1], w[2], w[3], w[4], w[5]])

/-- Class 7 (R141). -/
def unpackC7 (w : Lanes) : Value :=
  BitVec.ofNat 64 (bigEndian [w[1], w[2], w[3], w[4], w[5], w[6]])

/-- Class 8 (R142). -/
def unpackC8 (w : Lanes) : Value :=
  BitVec.ofNat 64 (bigEndian [w[1], w[2], w[3], w[4], w[5], w[6], w[7]])

/-- Class 9 (R143). -/
def unpackC9 (w : Lanes) : Value :=
  BitVec.ofNat 64 (bigEndian [w[1], w[2], w[3], w[4], w[5], w[6], w[7], w[8]])

/-- `UNPACK(k, dec_byte[0..k-1])` (R130). -/
def unpack : LengthClass → Lanes → Value
  | .c1 => unpackC1
  | .c2 => unpackC2
  | .c3 => unpackC3
  | .c4 => unpackC4
  | .c5 => unpackC5
  | .c6 => unpackC6
  | .c7 => unpackC7
  | .c8 => unpackC8
  | .c9 => unpackC9

end Sys2Proof.Machine
end

