-- ==== Sys2Proof/Machine/Flags.lean ====
section
/-! DEFINITION. The core's only status flag, `dec_ok`, and what goes with it: the required length, the
availability check, the insufficient-input outcome and its two derived views (10_state.md R26,
41_decode.md R132, R133, R144, R145, 60_exceptions.md R170). -/

namespace Sys2Proof.Machine

/-- `NEED(a, P)`, where k is `class(P)`; with no byte available the prefix is not looked at (R132, R134). -/
def requiredLength (a : Count) (k : LengthClass) : Count :=
  if a = 0#4 then 1#4 else k.count

/-- The availability check, an unsigned 4-bit comparison (R133). -/
def available (a need : Count) : Bool := decide (need.toNat ≤ a.toNat)

/-- The insufficient-input outcome `INSUFFICIENT_BYTES`: no value, and the required length as its payload
(R144, R170). -/
def insufficient (need : Count) : DecResult := ⟨false, 0#64, 0#4, need⟩

/-- The outputs of `DEC` when the prefix selects class k and the class's unpacker gives `value` (R130). -/
def classResult (k : LengthClass) (value : Value) (a : Count) : DecResult :=
  if available a (requiredLength a k) then ⟨true, value, k.count, k.count⟩
  else insufficient (requiredLength a k)

/-- The status code: 0 is `OK`, 1 is `INSUFFICIENT_BYTES` (R170). -/
def DecResult.statusCode (r : DecResult) : Nat := if r.ok then 0 else 1

/-- The reference return: the length on success, minus the required length on failure (R145). -/
def DecResult.referenceReturn (r : DecResult) : Int :=
  if r.ok then (r.len.toNat : Int) else -(r.need.toNat : Int)

end Sys2Proof.Machine
end

