-- ==== Sys2Proof/Machine/Ops.lean ====
section
/-! DEFINITION. The named operations: the two units as functions, the callers' bytes, and the updates of
the state. The core has no trap (60_exceptions.md R174): the one place where an operation records a
model-level fault or refusal is `recordFault` and `markRefused`. -/

namespace Sys2Proof.Machine

/-- What a step and a meaning answer. -/
abbrev Result := Host.Outcome State Fault Refusal

/-! ## The two units -/

/-- The encoder unit: `enc_len` and `enc_byte[0..8]` as functions of `enc_value` (40_encode.md R100). -/
def encodeValue (v : Value) : EncResult :=
  ⟨(selectClass v).count, encLanes (selectClass v) v⟩

/-- The decoder unit: its outputs as functions of `dec_avail` and `dec_byte[0..8]` (41_decode.md R130). -/
def decodeWindow (a : Count) (w : Lanes) : DecResult :=
  classResult (prefixClass w[0]) (unpack (prefixClass w[0]) w) a

/-- The encoding itself, the first `enc_len` lanes (R113). -/
def EncResult.written (r : EncResult) : List Byte := r.bytes.toList.take r.len.toNat

/-! ## The callers' bytes -/

/-- What a byte that nothing has written reads as. DESIGN CHOICE, log 3. -/
def unlistedByte : Byte := 0x00#8

/-- One byte of memory. -/
def Memory.read : Memory → Nat → Byte
  | [], _ => unlistedByte
  | (a, b) :: rest, x => if a = x then b else Memory.read rest x

/-- Takes an address out of the list. -/
def Memory.erase : Memory → Nat → Memory
  | [], _ => []
  | (a, b) :: rest, x => if a = x then rest else (a, b) :: Memory.erase rest x

/-- Puts a byte at an address, in address order. -/
def Memory.insert : Memory → Nat → Byte → Memory
  | [], x, v => [(x, v)]
  | (a, b) :: rest, x, v =>
    if x < a then (x, v) :: (a, b) :: rest
    else if a = x then (x, v) :: rest
    else (a, b) :: Memory.insert rest x v

/-- Writes one byte, keeping the canonical form. -/
def Memory.write (m : Memory) (x : Nat) (v : Byte) : Memory :=
  if v = unlistedByte then m.erase x else m.insert x v

/-- `MemWrite(addr, n, v)`: consecutive bytes, the first at `x` (00_scope.md R9). -/
def Memory.writeBytes : Memory → Nat → List Byte → Memory
  | m, _, [] => m
  | m, x, b :: bs => Memory.writeBytes (m.write x b) (x + 1) bs

/-- `MemRead(addr, n)`: n consecutive bytes, the one at `x` first (R9). -/
def Memory.readBytes (m : Memory) : Nat → Nat → List Byte
  | _, 0 => []
  | x, n + 1 => m.read x :: Memory.readBytes m (x + 1) n

/-- Every listed address is at least `lo`, addresses rise strictly, no entry is an unlisted byte's value. -/
def Memory.wfFrom : Nat → Memory → Bool
  | _, [] => true
  | lo, (a, b) :: rest => decide (lo ≤ a) && decide (b ≠ unlistedByte) && Memory.wfFrom (a + 1) rest

/-- The canonical form of memory. -/
def Memory.wf (m : Memory) : Bool := Memory.wfFrom 0 m

/-! ## Buffers -/

/-- The buffer after its first n bytes. -/
def Buffer.drop (b : Buffer) (n : Nat) : Buffer := ⟨b.base + n, b.len - n⟩

/-- The first n bytes of the buffer. -/
def Buffer.take (b : Buffer) (n : Nat) : Buffer := ⟨b.base, min n b.len⟩

/-- The two buffers have a byte in common. -/
def Buffer.overlaps (b c : Buffer) : Bool :=
  decide (max b.base c.base < min (b.base + b.len) (c.base + c.len))

/-! ## Updates of the state -/

/-- Drives `enc_value`. -/
def State.driveEnc (s : State) (v : Value) : State := { s with encValue := v }

/-- Drives `dec_avail` and `dec_byte[0..8]`. -/
def State.driveDec (s : State) (a : Count) (w : Lanes) : State := { s with decAvail := a, decByte := w }

/-- Attaches the caller's output buffer of the operation that runs, or none. -/
def State.attach (s : State) (out : Option Buffer) : State := { s with encOut := out }

/-- Appends a response record (30_encoding.md R70). -/
def State.respond (s : State) (r : Response) : State := { s with responses := s.responses ++ [r] }

/-- Writes consecutive bytes of the callers' memory. -/
def State.storeBytes (s : State) (x : Nat) (bs : List Byte) : State :=
  { s with memory := s.memory.writeBytes x bs }

/-- Records a model-level fault; the first one recorded stays (10_state.md R29, log 7). -/
def State.recordFault (s : State) (f : ModelFault) : State := { s with fault := s.fault.or (some f) }

/-- Marks the run as refused, for good (30_encoding.md R69). -/
def State.markRefused (s : State) : State := { s with refused := true }

/-- Replaces the operations in flight. -/
def State.fly (s : State) (calls : List Call) : State := { s with inFlight := calls }

/-- Takes a fresh free value for the lanes that no byte drives. -/
def State.draw (s : State) : State := { s with undrivenDraws := s.undrivenDraws + 1 }

end Sys2Proof.Machine
end

