-- ==== Sys2Proof/Machine/Ports.lean ====
section
/-! DEFINITION. The output ports. They are combinational: at all times a function of the current input
ports, not stored (70_reset_and_hazards.md R190, R191). -/

namespace Sys2Proof.Machine

/-- The encoder's outputs. -/
def State.encOutputs (s : State) : EncResult := encodeValue s.encValue

/-- The decoder's outputs. -/
def State.decOutputs (s : State) : DecResult := decodeWindow s.decAvail s.decByte

/-- Port `enc_len` (10_state.md R24). -/
def State.encLen (s : State) : Count := s.encOutputs.len

/-- Ports `enc_byte[0..8]` (R24). -/
def State.encByte (s : State) : Lanes := s.encOutputs.bytes

/-- Port `dec_ok` (10_state.md R25, R26). -/
def State.decOk (s : State) : Bool := s.decOutputs.ok

/-- Port `dec_value` (R25). -/
def State.decValue (s : State) : Value := s.decOutputs.value

/-- Port `dec_len` (R25). -/
def State.decLen (s : State) : Count := s.decOutputs.len

/-- Port `dec_need` (R25). -/
def State.decNeed (s : State) : Count := s.decOutputs.need

/-- `enc_bus` (20_memory.md R42). -/
def State.encBus (s : State) : Bus := busOfLanes s.encByte

/-- `dec_bus` (R42). -/
def State.decBus (s : State) : Bus := busOfLanes s.decByte

end Sys2Proof.Machine
end

