-- ==== Sys2Proof/Machine/Caller.lean ====
section
/-! DEFINITION. The callers' side: how an operation in flight becomes an instruction on the ports, which
schedules have no step, and what a caller does with a response (20_memory.md R43, R44, R49;
70_reset_and_hazards.md R195, R197). -/

namespace Sys2Proof.Machine

/-! ## Buffers in use -/

/-- The buffer an operation uses. A `DEC` request carries its bytes in the word and uses none. DESIGN CHOICE
(log 8): an `ENC` word uses its attached buffer even when a reserved bit of it is set (R69), and so does a
stream, a retry or a sequence that has nothing left to do; R49 and R195 do not say. -/
def Call.buffer (c : Call) : Option Buffer :=
  match c.op with
  | .request w out => if w.getLsbD 0 then none else out
  | .encodeSeq _ out => some out
  | .decodeFrom input => some input
  | .retryFrom input _ => some input
  | .streamFrom input _ => some input

/-- The operation `d` of another caller uses a byte of the buffer `b` (R195). -/
def Call.clashes (c : Call) (b : Buffer) (d : Call) : Bool :=
  decide (c.caller ≠ d.caller) &&
    match d.buffer with
    | none => false
    | some e => b.overlaps e

/-- The buffer that the operation shares with an operation of another caller, if there is one (R195). -/
def sharedWith (c : Call) (others : List Call) : Option Buffer :=
  match c.buffer with
  | none => none
  | some b => if others.any (c.clashes b) then some b else none

/-- A buffer that operations of two callers in flight use at the same time, if there is one: such a schedule
gets no step (R195). Log 8. -/
def sharedBuffer : List Call → Option Buffer
  | [] => none
  | c :: others =>
    match sharedWith c others with
    | some b => some b
    | none => sharedBuffer others

/-! ## From an operation to an instruction -/

/-- What becomes of an operation when its turn comes. -/
inductive Issued where
  /-- An instruction, on a state whose ports and attached buffer the caller has set. -/
  | run (i : Instr) (s : State)
  /-- A malformed request word (30_encoding.md R69). -/
  | malformed (e : DecodeError) (s : State)
  /-- The caller has nothing left to ask. -/
  | finished (s : State)
  deriving DecidableEq, Repr

/-- `dec_avail` for an input of n bytes: `min(n, 9)` (20_memory.md R44). -/
def availOf (n : Nat) : Count := BitVec.ofNat 4 (min n Config.maxEncodedLen)

/-- Lane i of the window that a caller presents: `input[i]` for `i < min(n, 9)`, a free value past it
(R44, log 5, 19). -/
def State.windowLane (s : State) (input : Buffer) (i : Nat) : Byte :=
  if i < min input.len Config.maxEncodedLen then s.memory.read (input.base + i)
  else Config.undrivenLane s.undrivenDraws i

/-- The window that a caller presents (R44). -/
def State.window (s : State) (input : Buffer) : Lanes :=
  #v[s.windowLane input 0, s.windowLane input 1, s.windowLane input 2, s.windowLane input 3,
    s.windowLane input 4, s.windowLane input 5, s.windowLane input 6, s.windowLane input 7,
    s.windowLane input 8]

/-- Drives the decoder's input ports from a caller's buffer (R44). -/
def State.present (s : State) (input : Buffer) : State :=
  (s.driveDec (availOf input.len) (s.window input)).draw

/-- The decode of the front of a buffer: the first byte selects the row (30_encoding.md R62); an empty
buffer has no first byte and `DEC` runs with `dec_avail` = 0 (41_decode.md R132, log 11). -/
def State.issueDecode (s : State) (input : Buffer) : Issued :=
  if input.len = 0 then .run (.dec 0#4 (s.window input)) (s.present input)
  else
    match decode (.firstByte (s.memory.read input.base)) with
    | .ok i => .run i (s.present input)
    | .error e => .malformed e s

/-- A request word (30_encoding.md R67 to R69). -/
def State.issueRequest (s : State) (w : ReqWord) (out : Option Buffer) : Issued :=
  match decode (.request w) with
  | .ok i => .run i (s.attach out)
  | .error e => .malformed e s

/-- The operation becomes an instruction. -/
def State.issue (s : State) (c : Call) : Issued :=
  match c.op with
  | .request w out => s.issueRequest w out
  | .encodeSeq [] _ => .finished s
  | .encodeSeq (v :: _) out => .run (.enc v) (s.attach (some out))
  | .decodeFrom input => s.issueDecode input
  | .retryFrom input arrived => s.issueDecode (input.take arrived)
  | .streamFrom input off =>
    if off < input.len then s.issueDecode (input.drop off) else .finished s

/-! ## What the caller does with the response (R197) -/

/-- The caller issues its next operation, behind the ones in flight. -/
def State.reissue (s : State) (c : Call) : State := s.fly (s.inFlight ++ [c])

/-- The encoding of a sequence: the output offset advances by `enc_len`; the caller stops where its buffer
was too short. -/
def State.continueSeq (s : State) (caller : Nat) (v : Value) (rest : List Value) (out : Buffer) : State :=
  if out.len < Config.maxEncodedLen then s
  else
    match rest with
    | [] => s
    | v' :: rest' =>
      s.reissue ⟨caller, .encodeSeq (v' :: rest') (out.drop (encodeValue v).len.toNat)⟩

/-- The retry protocol: on `INSUFFICIENT_BYTES(need)` the caller obtains `need` bytes, if its source has
them, and issues `DEC` again on the same start position (log 13). -/
def State.continueRetry (s : State) (caller : Nat) (input : Buffer) : State :=
  if s.decOk then s
  else if s.decNeed.toNat ≤ input.len then
    s.reissue ⟨caller, .retryFrom input s.decNeed.toNat⟩
  else s

/-- The stream protocol: on success the offset advances by `dec_len`, and the loop ends at the end of the
input; on failure the caller stops. -/
def State.continueStream (s : State) (caller : Nat) (input : Buffer) (off : Nat) : State :=
  if s.decOk then
    if off + s.decLen.toNat < input.len then
      s.reissue ⟨caller, .streamFrom input (off + s.decLen.toNat)⟩
    else s
  else s

/-- What the caller of an operation does once its response is there. -/
def State.followUp (s : State) (c : Call) : State :=
  match c.op with
  | .request _ _ => s
  | .encodeSeq [] _ => s
  | .encodeSeq (v :: rest) out => s.continueSeq c.caller v rest out
  | .decodeFrom _ => s
  | .retryFrom input _ => s.continueRetry c.caller input
  | .streamFrom input off => s.continueStream c.caller input off

/-- With nothing in flight the callers issue their next group; with nothing left, nothing happens
(log 12). -/
def State.issueNext (s : State) : State :=
  match s.upcoming with
  | [] => s
  | g :: rest => { s with inFlight := g, upcoming := rest }

/-- A next state goes on by `f`; a stop stays. -/
def onNext (r : Result) (f : State → State) : Result :=
  match r with
  | .next s => .next (f s)
  | .fault e => .fault e
  | .refused e => .refused e

/-! ## Where an instruction is placed -/

/-- The address at which `State.withFetchWord` places an input (log 16). -/
def fetchBase : Nat := 0

/-- The caller that `State.withFetchWord` stands for (log 16). -/
def fetchCaller : Nat := 0

/-- The bytes of an 8-bit row: the first byte, and zeros up to the longest encoding. -/
def firstByteInput (p : Byte) : List Byte := [p, 0#8, 0#8, 0#8, 0#8, 0#8, 0#8, 0#8, 0#8]

/-- A caller issues the decode of an input that starts with `p`. -/
def State.withFirstByte (s : State) (p : Byte) : State :=
  (s.storeBytes fetchBase (firstByteInput p)).fly
    [⟨fetchCaller, .decodeFrom ⟨fetchBase, Config.maxEncodedLen⟩⟩]

/-- A caller issues a request word, in the port-level view. -/
def State.withRequest (s : State) (w : ReqWord) : State := s.fly [⟨fetchCaller, .request w none⟩]

end Sys2Proof.Machine
end

