-- ==== Sys2Proof/Machine/Decoder.lean ====
section
/-! DEFINITION. The meaning of `DEC` (41_decode.md R130 to R148). -/

namespace Sys2Proof.Machine

/-- `DEC` (R130): drives the window and its available count; the response carries the output ports. -/
def execDec (a : Count) (w : Lanes) (s : State) : Result :=
  .next ((s.driveDec a w).respond (.dec (decodeWindow a w)))

end Sys2Proof.Machine
end

