-- ==== Sys2Proof/Machine/Encoder.lean ====
section
/-! DEFINITION. The meaning of `ENC` (40_encode.md R100 to R118), in its two views (20_memory.md R40). -/

namespace Sys2Proof.Machine

/-- The caller-buffer view (20_memory.md R43): a buffer of fewer than nine bytes is the model fault
`OutBufferTooSmall(cap)` and nothing is written or returned (60_exceptions.md R179); otherwise exactly
`enc_len` bytes are written from offset 0 and `enc_len` is returned. -/
def State.encodeInto (s : State) (v : Value) (out : Buffer) : State :=
  if out.len < Config.maxEncodedLen then s.recordFault (.outBufferTooSmall out.len)
  else
    ((s.driveEnc v).storeBytes out.base (encodeValue v).written).respond (.wrote (encodeValue v).len)

/-- `ENC` (R100): with no buffer attached the response carries the output ports. -/
def execEnc (v : Value) (s : State) : Result :=
  .next (match s.encOut with
    | none => (s.driveEnc v).respond (.enc (encodeValue v))
    | some out => s.encodeInto v out)

end Sys2Proof.Machine
end

