-- ==== Sys2Proof/Machine/PrefixClasses.lean ====
section
/-! DEFINITION. The meanings of the sixteen prefix-class rows (30_encoding.md R62, 41_decode.md R131): a
caller's bytes stand in the decoder's window, the byte at the front selects the row, and the row decodes
the window by its class's rule (R135 to R143). How the window and the available count come from the
caller's buffer stands in Machine/Caller.lean (20_memory.md R44). -/

namespace Sys2Proof.Machine

/-- Puts the row's prefix byte at the front of the window. -/
def State.presentFirst (s : State) (p : Byte) : State := s.driveDec s.decAvail (s.decByte.set 0 p)

/-- A row of class k with unpacker `f`, on the window of the state. -/
def State.decodeClass (s : State) (k : LengthClass) (f : Lanes → Value) : State :=
  s.respond (.dec (classResult k (f s.decByte) s.decAvail))

/-- `PFX_C1_A`: class 1, prefix 0x00..0x7F (41_decode.md R135). -/
def execPfxC1A (p : Byte) (s : State) : Result :=
  .next ((s.presentFirst p).decodeClass .c1 unpackC1)

/-- `PFX_C1_B`: class 1, prefix 0x80..0xBF (41_decode.md R135). -/
def execPfxC1B (p : Byte) (s : State) : Result :=
  .next ((s.presentFirst p).decodeClass .c1 unpackC1)

/-- `PFX_C1_C`: class 1, prefix 0xC0..0xDF (41_decode.md R135). -/
def execPfxC1C (p : Byte) (s : State) : Result :=
  .next ((s.presentFirst p).decodeClass .c1 unpackC1)

/-- `PFX_C1_D`: class 1, prefix 0xE0..0xEF (41_decode.md R135). -/
def execPfxC1D (p : Byte) (s : State) : Result :=
  .next ((s.presentFirst p).decodeClass .c1 unpackC1)

/-- `PFX_C1_E`: class 1, prefix 0xF0 (41_decode.md R135). -/
def execPfxC1E (s : State) : Result :=
  .next ((s.presentFirst 0xF0#8).decodeClass .c1 unpackC1)

/-- `PFX_C2_A`: class 2, prefix 0xF1 (41_decode.md R136). -/
def execPfxC2A (s : State) : Result :=
  .next ((s.presentFirst 0xF1#8).decodeClass .c2 unpackC2)

/-- `PFX_C2_B`: class 2, prefix 0xF2..0xF3 (41_decode.md R136). -/
def execPfxC2B (p : Byte) (s : State) : Result :=
  .next ((s.presentFirst p).decodeClass .c2 unpackC2)

/-- `PFX_C2_C`: class 2, prefix 0xF4..0xF7 (41_decode.md R136). -/
def execPfxC2C (p : Byte) (s : State) : Result :=
  .next ((s.presentFirst p).decodeClass .c2 unpackC2)

/-- `PFX_C2_D`: class 2, prefix 0xF8 (41_decode.md R136). -/
def execPfxC2D (s : State) : Result :=
  .next ((s.presentFirst 0xF8#8).decodeClass .c2 unpackC2)

/-- `PFX_C3`: class 3, prefix 0xF9 (41_decode.md R137). -/
def execPfxC3 (s : State) : Result :=
  .next ((s.presentFirst 0xF9#8).decodeClass .c3 unpackC3)

/-- `PFX_C4`: class 4, prefix 0xFA (41_decode.md R138). -/
def execPfxC4 (s : State) : Result :=
  .next ((s.presentFirst 0xFA#8).decodeClass .c4 unpackC4)

/-- `PFX_C5`: class 5, prefix 0xFB (41_decode.md R139). -/
def execPfxC5 (s : State) : Result :=
  .next ((s.presentFirst 0xFB#8).decodeClass .c5 unpackC5)

/-- `PFX_C6`: class 6, prefix 0xFC (41_decode.md R140). -/
def execPfxC6 (s : State) : Result :=
  .next ((s.presentFirst 0xFC#8).decodeClass .c6 unpackC6)

/-- `PFX_C7`: class 7, prefix 0xFD (41_decode.md R141). -/
def execPfxC7 (s : State) : Result :=
  .next ((s.presentFirst 0xFD#8).decodeClass .c7 unpackC7)

/-- `PFX_C8`: class 8, prefix 0xFE (41_decode.md R142). -/
def execPfxC8 (s : State) : Result :=
  .next ((s.presentFirst 0xFE#8).decodeClass .c8 unpackC8)

/-- `PFX_C9`: class 9, prefix 0xFF (41_decode.md R143). -/
def execPfxC9 (s : State) : Result :=
  .next ((s.presentFirst 0xFF#8).decodeClass .c9 unpackC9)

end Sys2Proof.Machine
end

