-- ==== Sys2Proof/Machine/Dispatch.lean ====
section
/-! DEFINITION. One arm per instruction. -/

namespace Sys2Proof.Machine

def exec (i : Instr) (s : State) : Host.Outcome State Fault Refusal :=
  match i with
  | .enc value => Sys2Proof.Machine.execEnc value s
  | .dec avail bytes => Sys2Proof.Machine.execDec avail bytes s
  | .pfxC1A p => Sys2Proof.Machine.execPfxC1A p s
  | .pfxC1B p => Sys2Proof.Machine.execPfxC1B p s
  | .pfxC1C p => Sys2Proof.Machine.execPfxC1C p s
  | .pfxC1D p => Sys2Proof.Machine.execPfxC1D p s
  | .pfxC1E => Sys2Proof.Machine.execPfxC1E s
  | .pfxC2A => Sys2Proof.Machine.execPfxC2A s
  | .pfxC2B p => Sys2Proof.Machine.execPfxC2B p s
  | .pfxC2C p => Sys2Proof.Machine.execPfxC2C p s
  | .pfxC2D => Sys2Proof.Machine.execPfxC2D s
  | .pfxC3 => Sys2Proof.Machine.execPfxC3 s
  | .pfxC4 => Sys2Proof.Machine.execPfxC4 s
  | .pfxC5 => Sys2Proof.Machine.execPfxC5 s
  | .pfxC6 => Sys2Proof.Machine.execPfxC6 s
  | .pfxC7 => Sys2Proof.Machine.execPfxC7 s
  | .pfxC8 => Sys2Proof.Machine.execPfxC8 s
  | .pfxC9 => Sys2Proof.Machine.execPfxC9 s

end Sys2Proof.Machine
end

