-- ==== Sys2Proof/Machine/Step.lean ====
section
/-! DEFINITION. One step: the oldest operation in flight completes, as a whole (20_memory.md R47), or,
with nothing in flight, the callers issue their next group. -/

namespace Sys2Proof.Machine

/-- An operation whose turn has come, `s` being the state without it in flight. -/
def stepCall (c : Call) (s : State) : Host.Outcome State Fault Refusal :=
  match s.issue c with
  | .run i t => onNext (exec i t) (fun u => u.followUp c)
  | .malformed _ t => .next t.markRefused
  | .finished t => .next t

/-- One step. -/
def step (s : State) : Host.Outcome State Fault Refusal :=
  match s.inFlight with
  | [] => .next s.issueNext
  | c :: others =>
    match sharedBuffer (c :: others) with
    | some b => .fault (.sharedBuffer b)
    | none => stepCall c (s.fly others)

/-- The state in which a caller has issued the instruction whose `nbits` bits are `w`: an 8-bit row is the
first byte of a nine-byte input, any other row a request word. Log 4, 16. -/
def State.withFetchWord (s : State) (nbits w : Nat) : State :=
  if nbits = 8 then s.withFirstByte (BitVec.ofNat 8 w) else s.withRequest (BitVec.ofNat 80 w)

end Sys2Proof.Machine
end

