-- ==== Sys2Proof/Safety.lean ====
section
/-! DEFINITION. What a run must not have done for a claim about it to count (10_state.md R29). -/

namespace Sys2Proof.Machine

/-- No fault recorded and not refused: the premise that R29 gives every claim about a run. -/
def State.unmarked (s : State) : Bool := s.fault.isNone && !s.refused

/-- A run of `n` steps that ends in a state whose marks are clear. -/
def safeRun (n : Nat) (s : State) : Bool :=
  match Sys2Proof.core.run n s with
  | .next t => State.unmarked t
  | .fault _ => false
  | .refused _ => false

/-- Nothing is in flight and the callers have nothing left to issue: the run has finished. -/
def State.finished (s : State) : Bool := s.inFlight.isEmpty && s.upcoming.isEmpty

end Sys2Proof.Machine
end

