-- ==== Sys2Proof/Certificates/Slice0/Obligations.lean ====
section
/-! DEFINITION. The statements for the provers. Each docstring names the rule of spec/ it formalises. Values
of operands are written as the numbers of the rules (not as the model's table), so that a wrong table makes
a statement false. -/

namespace Sys2Proof.Machine

/-! ## Words the statements use -/

/-- The state after a prefix row with first byte `p` has answered `r`: the first lane holds `p`, one
response is there, and nothing else differs from `s`. -/
def State.served (s : State) (p : Byte) (r : DecResult) : State :=
  { s with decByte := s.decByte.set 0 p, responses := s.responses ++ [.dec r] }

/-- The answer of a class of length `k` (1 to 9) whose rule gives `value`, when `a` bytes are available:
rules R130, R132, R133 and R144 in one line. -/
def classAnswer (k : Nat) (value : Value) (a : Count) : DecResult :=
  if k ≤ a.toNat then ⟨true, value, BitVec.ofNat 4 k, BitVec.ofNat 4 k⟩
  else if a.toNat = 0 then ⟨false, 0#64, 0#4, 1#4⟩
  else ⟨false, 0#64, 0#4, BitVec.ofNat 4 k⟩

/-- The state after `ENC` of `v` in the port-level view has answered length `k` and these bytes. -/
def State.encoded (s : State) (v : Value) (k : Count) (bytes : Lanes) : State :=
  { s with encValue := v, responses := s.responses ++ [.enc ⟨k, bytes⟩] }

/-- The state after `DEC` of a window has answered `r`. -/
def State.decoded (s : State) (a : Count) (w : Lanes) (r : DecResult) : State :=
  { s with decAvail := a, decByte := w, responses := s.responses ++ [.dec r] }

/-- Bits 8*i+7 to 8*i of a value. -/
def valueByte (v : Value) (i : Nat) : Byte := v.extractLsb' (8 * i) 8

/-- The bytes of the encodings of the values, one after the other. -/
def concatEncodings (vs : List Value) : List Byte := vs.flatMap (fun v => (encodeValue v).written)

/-- The response of a decode that gives `v` from its minimal encoding. -/
def decodedOk (v : Value) : Response :=
  .dec ⟨true, v, (encodeValue v).len, (encodeValue v).len⟩

/-- The bytes at `x`, `x + 1`, … of memory are these. -/
def Memory.holds (m : Memory) (x : Nat) (bs : List Byte) : Prop :=
  ∀ i, i < bs.length → m.read (x + i) = bs.getD i 0#8

/-- The first `n` offsets of the buffer read the same in both memories. -/
def Memory.agreeOn (m m' : Memory) (b : Buffer) (n : Nat) : Prop :=
  ∀ i, i < n → m.read (b.base + i) = m'.read (b.base + i)

/-- The buffer into which an operation writes. -/
def Call.outBuffer (c : Call) : Option Buffer :=
  match c.op with
  | .request w out => if w.getLsbD 0 then none else out
  | .encodeSeq _ out => some out
  | .decodeFrom _ => none
  | .retryFrom _ _ => none
  | .streamFrom _ _ => none

/-- Two operations of different callers, the one before the other in the list, use buffers that have a byte
in common (70_reset_and_hazards.md R195). -/
def shareBuffer (calls : List Call) : Prop :=
  ∃ (c d : Call) (b e : Buffer), [c, d].Sublist calls ∧ c.caller ≠ d.caller ∧
    c.buffer = some b ∧ d.buffer = some e ∧ b.overlaps e = true

/-- The total length of the class of a prefix row, from the rows of spec/opcode_table.json; 0 for a
request. -/
def rowLength : Instr → Nat
  | .enc _ => 0
  | .dec _ _ => 0
  | .pfxC1A _ => 1
  | .pfxC1B _ => 1
  | .pfxC1C _ => 1
  | .pfxC1D _ => 1
  | .pfxC1E => 1
  | .pfxC2A => 2
  | .pfxC2B _ => 2
  | .pfxC2C _ => 2
  | .pfxC2D => 2
  | .pfxC3 => 3
  | .pfxC4 => 4
  | .pfxC5 => 5
  | .pfxC6 => 6
  | .pfxC7 => 7
  | .pfxC8 => 8
  | .pfxC9 => 9

/-- A reserved bit of the request word is set: bits [7:5] of a `DEC` word, bits [7:1] and [79:72] of an
`ENC` word (30_encoding.md R68). -/
def hasReservedBitSet (w : ReqWord) : Prop :=
  ∃ n, w.getLsbD n = true ∧
    ((5 ≤ n ∧ n ≤ 7) ∨ (w.getLsbD 0 = false ∧ ((1 ≤ n ∧ n ≤ 4) ∨ (72 ≤ n ∧ n ≤ 79))))

end Sys2Proof.Machine

open Sys2Proof Sys2Proof.Machine

/-! ## Reset and encoding -/

/-- R192: the model's initial state has no fault recorded, is not refused, and has nothing in flight. -/
def Obligations.ResetHasNoMarksAndNothingInFlight : Prop :=
  State.reset.fault = none ∧ State.reset.refused = false ∧ State.reset.inFlight = []

/-- The invariant of the callers' memory holds at reset. That memory is empty at reset is the model's
choice (log 3). -/
def Obligations.ResetMemoryCanonical : Prop := State.reset.memory.wf = true

/-- A few words written out from R68 and R62, the vectors Q1 to Q6 of 95_test_vectors.md among them. -/
def Obligations.WrittenWordsDecode : Prop :=
  decode (.request 0x00000000000000000000#80) = .ok (.enc 0#64) ∧
  decode (.request 0x00000000000000012C00#80) = .ok (.enc 300#64) ∧
  decode (.request 0x00FFFFFFFFFFFFFFFF00#80) = .ok (.enc 0xFFFFFFFFFFFFFFFF#64) ∧
  decode (.request 0x0000000000000000F105#80) =
    .ok (.dec 2#4 #v[0xF1#8, 0#8, 0#8, 0#8, 0#8, 0#8, 0#8, 0#8, 0#8]) ∧
  decode (.request 0x0807060504030201FF13#80) =
    .ok (.dec 9#4 #v[0xFF#8, 1#8, 2#8, 3#8, 4#8, 5#8, 6#8, 7#8, 8#8]) ∧
  decode (.firstByte 0x7F#8) = .ok (.pfxC1A 0x7F#8) ∧
  decode (.firstByte 0xF3#8) = .ok (.pfxC2B 0xF3#8) ∧
  decode (.firstByte 0xFF#8) = .ok .pfxC9

/-- Decoding the encoding of a well-formed instruction gives the instruction, every operand at every value
(R62, R68). -/
def Obligations.DecodeOfEncodeIsInstr : Prop :=
  ∀ i : Instr, i.wf = true → decode (encode i) = .ok i

/-- Whatever decodes is the encoding of the instruction it decodes to, and that instruction is well formed:
each request word and each first byte has one meaning (R62, R64, R68). -/
def Obligations.EncodeOfDecodeIsWord : Prop :=
  ∀ (f : Fetched) (i : Instr), decode f = .ok i → i.wf = true ∧ encode i = f

/-- R62, R64: every first byte decodes, to a row of the class that the parser map gives it; the decoder
unit's own parser gives that class too. -/
def Obligations.FirstByteSelectsClass : Prop :=
  ∀ p : Byte, ∃ i : Instr, decode (.firstByte p) = .ok i ∧
    rowLength i = (if p.toNat ≤ 240 then 1 else if p.toNat ≤ 248 then 2 else p.toNat - 246) ∧
    (prefixClass p).len = rowLength i

/-- R42: byte i of a nine-lane port sits at bits [8*i+7 : 8*i] of its bus. -/
def Obligations.BusLaneOrder : Prop :=
  ∀ (s : State) (i : Fin 9),
    s.encBus.extractLsb' (8 * i.val) 8 = s.encByte[i] ∧ s.decBus.extractLsb' (8 * i.val) 8 = s.decByte[i]

/-- R23: the value ranges are disjoint and cover [0, 2^64-1], the prefix ranges are disjoint and cover
0..255, both rise with the class, and the total length of class k is k. -/
def Obligations.ClassTablePartitions : Prop :=
  (∀ n : Nat, n < 2 ^ 64 → ∃! k : LengthClass, (classRow k).lo ≤ n ∧ n ≤ (classRow k).hi) ∧
  (∀ n : Nat, n < 256 → ∃! k : LengthClass, (classRow k).prefixLo ≤ n ∧ n ≤ (classRow k).prefixHi) ∧
  (classRow .c1).lo = 0 ∧ (classRow .c9).hi = 2 ^ 64 - 1 ∧
  (∀ j k : LengthClass, k.len = j.len + 1 →
    (classRow k).lo = (classRow j).hi + 1 ∧ (classRow j).prefixHi < (classRow k).prefixLo) ∧
  (classRow .c1).len = 1 ∧ (classRow .c2).len = 2 ∧ (classRow .c3).len = 3 ∧ (classRow .c4).len = 4 ∧
  (classRow .c5).len = 5 ∧ (classRow .c6).len = 6 ∧ (classRow .c7).len = 7 ∧ (classRow .c8).len = 8 ∧
  (classRow .c9).len = 9

/-! ## A step runs the decoded instruction -/

/-- R67 to R69: a well-formed request word in flight runs as the instruction it decodes to, on the state
without the operation in flight and with the operation's output buffer attached. How an operation comes to
its turn and how its buffer is attached is the model's choice (log 4, 9). -/
def Obligations.StepRunsRequest : Prop :=
  ∀ (s : State) (caller : Nat) (w : ReqWord) (out : Option Buffer) (others : List Call) (i : Instr),
    s.inFlight = ⟨caller, .request w out⟩ :: others →
    sharedBuffer s.inFlight = none →
    decode (.request w) = .ok i →
    step s = exec i ((s.fly others).attach out)

/-- R44, R62: the decode of a non-empty buffer runs as the instruction its first byte selects, on the state
without the operation in flight and with the buffer presented on the decoder's ports. That the prefix rows
are run as instructions is the model's choice (log 10). -/
def Obligations.StepRunsFirstByte : Prop :=
  ∀ (s : State) (caller : Nat) (input : Buffer) (others : List Call) (i : Instr),
    s.inFlight = ⟨caller, .decodeFrom input⟩ :: others →
    sharedBuffer s.inFlight = none →
    0 < input.len →
    decode (.firstByte (s.memory.read input.base)) = .ok i →
    step s = exec i ((s.fly others).present input)

/-- R44: what presenting a buffer puts on the ports: min(n, 9) bytes are available, and lane i holds input
byte i for each i below that. That the lanes at or past the required length hold their input bytes too is the
model's reading (log 19), and the counter of free lane values is the model's own (log 5). -/
def Obligations.PresentedWindow : Prop :=
  ∀ (s : State) (input : Buffer),
    (s.present input).decAvail.toNat = min input.len 9 ∧
    (∀ i : Fin 9, i.val < min input.len 9 →
      (s.present input).decByte[i] = s.memory.read (input.base + i.val)) ∧
    s.present input =
      { s with decAvail := (s.present input).decAvail, decByte := (s.present input).decByte,
               undrivenDraws := s.undrivenDraws + 1 }

/-- R171: the decode of an empty buffer reports insufficient input with need 1, whatever memory and the
undriven lanes hold, and changes nothing outside the decoder's ports, the responses and the operations in
flight. That the empty buffer runs `DEC` with nothing available is the model's reading (log 11); the counter
of free lane values is its own (log 5). -/
def Obligations.EmptyBufferNeedsOne : Prop :=
  ∀ (s : State) (caller : Nat) (input : Buffer) (others : List Call),
    s.inFlight = ⟨caller, .decodeFrom input⟩ :: others →
    sharedBuffer s.inFlight = none →
    input.len = 0 →
    ∃ w : Lanes, step s = .next { s with
      inFlight := others, decAvail := 0#4, decByte := w, undrivenDraws := s.undrivenDraws + 1,
      responses := s.responses ++ [.dec ⟨false, 0#64, 0#4, 1#4⟩] }

/-- R69: a request word with a reserved bit set sets `refused` and produces no response; every other
request word has a meaning. That the malformed word leaves the operations in flight and the run goes on is the
model's reading (log 6). -/
def Obligations.ReservedBitMarksRefused : Prop :=
  ∀ (s : State) (caller : Nat) (w : ReqWord) (out : Option Buffer) (others : List Call),
    s.inFlight = ⟨caller, .request w out⟩ :: others →
    sharedBuffer s.inFlight = none →
    (hasReservedBitSet w → step s = .next { s with inFlight := others, refused := true }) ∧
    (¬ hasReservedBitSet w → ∃ i, decode (.request w) = .ok i)

/-- R195: a schedule in which operations of two callers in flight use one buffer gets no step; every other
state has a next state. What counts as one buffer used at the same time is the model's reading (log 8); that
a step goes on after a malformed word, after a short encode buffer and with nothing in flight is the model's
too (log 6, 7, 12). -/
def Obligations.OnlySharedBuffersAreStuck : Prop :=
  ∀ s : State,
    (shareBuffer s.inFlight → ∃ b : Buffer, step s = .fault (.sharedBuffer b)) ∧
    (¬ shareBuffer s.inFlight → ∃ t : State, step s = .next t)

/-- With nothing in flight the callers' next group is issued, and with none left nothing happens. Both are the
model's choice (log 12). -/
def Obligations.IdleStepIssuesNextGroup : Prop :=
  ∀ s : State, s.inFlight = [] →
    (∀ g rest, s.upcoming = g :: rest → step s = .next { s with inFlight := g, upcoming := rest }) ∧
    (s.upcoming = [] → step s = .next s)

/-! ## The encoder -/

/-- R104 to R112: `ENC` in the port-level view, class by class: the next state, whole. -/
def Obligations.EncClassRules : Prop :=
  ∀ (s : State) (v : Value), s.encOut = none →
    (v.toNat ≤ 240 →
      exec (.enc v) s = .next (s.encoded v 1#4
        #v[valueByte v 0, 0#8, 0#8, 0#8, 0#8, 0#8, 0#8, 0#8, 0#8])) ∧
    (241 ≤ v.toNat ∧ v.toNat ≤ 2287 →
      exec (.enc v) s = .next (s.encoded v 2#4
        #v[BitVec.ofNat 8 (241 + (v.toNat - 240) / 256), BitVec.ofNat 8 ((v.toNat - 240) % 256),
          0#8, 0#8, 0#8, 0#8, 0#8, 0#8, 0#8])) ∧
    (2288 ≤ v.toNat ∧ v.toNat ≤ 67823 →
      exec (.enc v) s = .next (s.encoded v 3#4
        #v[0xF9#8, BitVec.ofNat 8 ((v.toNat - 2288) / 256), BitVec.ofNat 8 ((v.toNat - 2288) % 256),
          0#8, 0#8, 0#8, 0#8, 0#8, 0#8])) ∧
    (67824 ≤ v.toNat ∧ v.toNat ≤ 2 ^ 24 - 1 →
      exec (.enc v) s = .next (s.encoded v 4#4
        #v[0xFA#8, valueByte v 2, valueByte v 1, valueByte v 0, 0#8, 0#8, 0#8, 0#8, 0#8])) ∧
    (2 ^ 24 ≤ v.toNat ∧ v.toNat ≤ 2 ^ 32 - 1 →
      exec (.enc v) s = .next (s.encoded v 5#4
        #v[0xFB#8, valueByte v 3, valueByte v 2, valueByte v 1, valueByte v 0, 0#8, 0#8, 0#8, 0#8])) ∧
    (2 ^ 32 ≤ v.toNat ∧ v.toNat ≤ 2 ^ 40 - 1 →
      exec (.enc v) s = .next (s.encoded v 6#4
        #v[0xFC#8, valueByte v 4, valueByte v 3, valueByte v 2, valueByte v 1, valueByte v 0,
          0#8, 0#8, 0#8])) ∧
    (2 ^ 40 ≤ v.toNat ∧ v.toNat ≤ 2 ^ 48 - 1 →
      exec (.enc v) s = .next (s.encoded v 7#4
        #v[0xFD#8, valueByte v 5, valueByte v 4, valueByte v 3, valueByte v 2, valueByte v 1, valueByte v 0,
          0#8, 0#8])) ∧
    (2 ^ 48 ≤ v.toNat ∧ v.toNat ≤ 2 ^ 56 - 1 →
      exec (.enc v) s = .next (s.encoded v 8#4
        #v[0xFE#8, valueByte v 6, valueByte v 5, valueByte v 4, valueByte v 3, valueByte v 2, valueByte v 1,
          valueByte v 0, 0#8])) ∧
    (2 ^ 56 ≤ v.toNat →
      exec (.enc v) s = .next (s.encoded v 9#4
        #v[0xFF#8, valueByte v 7, valueByte v 6, valueByte v 5, valueByte v 4, valueByte v 3, valueByte v 2,
          valueByte v 1, valueByte v 0]))

/-- R43 where its precondition holds, on the model's view of the callers' bytes (log 3, 9): `ENC` into a
buffer of at least nine bytes writes exactly `enc_len` bytes from the buffer's start
and returns `enc_len`; every other byte of memory and every other field keeps its contents. -/
def Obligations.EncIntoBufferWritesExactly : Prop :=
  ∀ (s : State) (v : Value) (out : Buffer), s.encOut = some out → 9 ≤ out.len → s.memory.wf = true →
    ∃ m : Memory,
      exec (.enc v) s = .next { s with
        encValue := v, memory := m, responses := s.responses ++ [.wrote (encodeValue v).len] } ∧
      m.wf = true ∧
      (∀ i : Fin 9, i.val < (encodeValue v).len.toNat →
        m.read (out.base + i.val) = (encodeValue v).bytes[i]) ∧
      (∀ a : Nat, ¬ (out.base ≤ a ∧ a < out.base + (encodeValue v).len.toNat) →
        m.read a = s.memory.read a)

/-- R179: `ENC` into a buffer of fewer than nine bytes sets `fault` to `OutBufferTooSmall(cap)`, writes
nothing and returns nothing. The premise is R29's: no fault recorded before. That `enc_value` is not driven
either is the model's choice (log 7). -/
def Obligations.EncShortBufferFaults : Prop :=
  ∀ (s : State) (v : Value) (out : Buffer), s.encOut = some out → out.len < 9 → s.fault = none →
    exec (.enc v) s = .next { s with fault := some (.outBufferTooSmall out.len) }

/-- A short buffer when a fault is recorded already: that fault stays and nothing changes. R29 says a
recorded fault is never cleared; that the first one stays is the model's choice (log 7). -/
def Obligations.RecordedFaultStaysAtShortBuffer : Prop :=
  ∀ (s : State) (v : Value) (out : Buffer) (f : ModelFault), s.encOut = some out → out.len < 9 →
    s.fault = some f → exec (.enc v) s = .next s

/-- R117: at each of the eight boundaries `enc_len` steps from k to k+1, at T_k from exactly k, and no other
value changes it. -/
def Obligations.EncLenStepsAtBoundaries : Prop :=
  ∀ v : Value, v.toNat + 1 < 2 ^ 64 →
    (∀ t k : Nat, (t, k) ∈ [(240, 1), (2287, 2), (67823, 3), (2 ^ 24 - 1, 4), (2 ^ 32 - 1, 5),
        (2 ^ 40 - 1, 6), (2 ^ 48 - 1, 7), (2 ^ 56 - 1, 8)] →
      v.toNat = t →
      (encodeValue v).len.toNat = k ∧ (encodeValue (v + 1#64)).len.toNat = k + 1) ∧
    (v.toNat ∉ [240, 2287, 67823, 2 ^ 24 - 1, 2 ^ 32 - 1, 2 ^ 40 - 1, 2 ^ 48 - 1, 2 ^ 56 - 1] →
      (encodeValue (v + 1#64)).len = (encodeValue v).len)

/-- R118: the encoding is minimal: a window that decodes to v consumes at least `enc_len(v)` bytes. -/
def Obligations.EncodingIsMinimal : Prop :=
  ∀ (a : Count) (w : Lanes) (v : Value), (decodeWindow a w).ok = true → (decodeWindow a w).value = v →
    (encodeValue v).len.toNat ≤ (decodeWindow a w).len.toNat

/-- R162: encoded length is non-decreasing. -/
def Obligations.EncLenMonotonic : Prop :=
  ∀ v w : Value, v.toNat ≤ w.toNat → (encodeValue v).len.toNat ≤ (encodeValue w).len.toNat

/-- R163: a smaller value has the byte-wise lexicographically smaller encoding. -/
def Obligations.EncodingPreservesOrder : Prop :=
  ∀ v w : Value, v.toNat < w.toNat →
    List.Lex (fun b c : Byte => b.toNat < c.toNat) (encodeValue v).written (encodeValue w).written

/-! ## The decoder -/

/-- R135 to R143: `DEC` class by class, with enough bytes available and with too few: the next state, whole. -/
def Obligations.DecClassRules : Prop :=
  ∀ (s : State) (a : Count) (w : Lanes),
    (w[0].toNat ≤ 240 →
      exec (.dec a w) s = .next (s.decoded a w (classAnswer 1 (w[0].setWidth 64) a))) ∧
    (241 ≤ w[0].toNat ∧ w[0].toNat ≤ 248 →
      exec (.dec a w) s = .next (s.decoded a w (classAnswer 2
        ((w[0].setWidth 64 - 241#64) * 256#64 + w[1].setWidth 64 + 240#64) a))) ∧
    (w[0] = 0xF9#8 →
      exec (.dec a w) s = .next (s.decoded a w (classAnswer 3
        (2288#64 + 256#64 * w[1].setWidth 64 + w[2].setWidth 64) a))) ∧
    (w[0] = 0xFA#8 →
      exec (.dec a w) s = .next (s.decoded a w (classAnswer 4
        ((w[1] ++ w[2] ++ w[3]).setWidth 64) a))) ∧
    (w[0] = 0xFB#8 →
      exec (.dec a w) s = .next (s.decoded a w (classAnswer 5
        ((w[1] ++ w[2] ++ w[3] ++ w[4]).setWidth 64) a))) ∧
    (w[0] = 0xFC#8 →
      exec (.dec a w) s = .next (s.decoded a w (classAnswer 6
        ((w[1] ++ w[2] ++ w[3] ++ w[4] ++ w[5]).setWidth 64) a))) ∧
    (w[0] = 0xFD#8 →
      exec (.dec a w) s = .next (s.decoded a w (classAnswer 7
        ((w[1] ++ w[2] ++ w[3] ++ w[4] ++ w[5] ++ w[6]).setWidth 64) a))) ∧
    (w[0] = 0xFE#8 →
      exec (.dec a w) s = .next (s.decoded a w (classAnswer 8
        ((w[1] ++ w[2] ++ w[3] ++ w[4] ++ w[5] ++ w[6] ++ w[7]).setWidth 64) a))) ∧
    (w[0] = 0xFF#8 →
      exec (.dec a w) s = .next (s.decoded a w (classAnswer 9
        ((w[1] ++ w[2] ++ w[3] ++ w[4] ++ w[5] ++ w[6] ++ w[7] ++ w[8]).setWidth 64) a)))

/-- R132, R133, R144: `DEC` in general: the required length is 1 with no byte available and the class length
of the first byte otherwise, lies in 1..9, `dec_ok` says that enough bytes are available, and on failure
value and length are 0; the next state, whole. -/
def Obligations.DecAvailabilityCheck : Prop :=
  ∀ (s : State) (a : Count) (w : Lanes), ∃ (need : Count) (value : Value),
    need.toNat = (if a.toNat = 0 then 1
      else if w[0].toNat ≤ 240 then 1
      else if w[0].toNat ≤ 248 then 2
      else w[0].toNat - 246) ∧
    1 ≤ need.toNat ∧ need.toNat ≤ 9 ∧
    exec (.dec a w) s = .next (s.decoded a w
      (if need.toNat ≤ a.toNat then ⟨true, value, need, need⟩ else ⟨false, 0#64, 0#4, need⟩))

/-- R170: insufficient input is a result, not a trap: whatever the window, `DEC` with fewer bytes than the
prefix demands answers a next state in which only the decoder's ports and the responses differ; the status
code is 1 and the payload is the required length. -/
def Obligations.InsufficientBytesIsAResult : Prop :=
  ∀ (s : State) (a : Count) (w : Lanes), 1 ≤ a.toNat → a.toNat < (prefixClass w[0]).len →
    ∃ r : DecResult, exec (.dec a w) s = .next (s.decoded a w r) ∧ r.ok = false ∧ r.statusCode = 1 ∧
      r.need.toNat = (prefixClass w[0]).len

/-- R134: every output of `DEC` depends on `a` and on the bytes below min(a, need) only; on failure, on no
byte but the first. -/
def Obligations.DecInputMasking : Prop :=
  ∀ (a : Count) (w w' : Lanes),
    ((∀ i : Fin 9, i.val < min a.toNat (decodeWindow a w).need.toNat → w[i] = w'[i]) →
      decodeWindow a w = decodeWindow a w') ∧
    ((decodeWindow a w).ok = false → (1 ≤ a.toNat → w[0] = w'[0]) → decodeWindow a w = decodeWindow a w')

/-- R133: the values 9..15 of the available count behave alike. -/
def Obligations.AvailNineAndMoreAlike : Prop :=
  ∀ (a : Count) (w : Lanes), 9 ≤ a.toNat → decodeWindow a w = decodeWindow 9#4 w

/-- R145: the reference return is the length on success and minus the required length on failure, lies in
1..9 or in -9..-1, and is never 0. -/
def Obligations.ReferenceReturnRange : Prop :=
  ∀ (a : Count) (w : Lanes),
    ((decodeWindow a w).ok = true →
      (decodeWindow a w).referenceReturn = ((decodeWindow a w).len.toNat : Int) ∧
      1 ≤ (decodeWindow a w).referenceReturn ∧ (decodeWindow a w).referenceReturn ≤ 9) ∧
    ((decodeWindow a w).ok = false →
      (decodeWindow a w).referenceReturn = -((decodeWindow a w).need.toNat : Int) ∧
      -9 ≤ (decodeWindow a w).referenceReturn ∧ (decodeWindow a w).referenceReturn ≤ -1)

/-- R135 on the five class-1 rows: the value is the prefix itself; the next state, whole. That the prefix
rows are run as instructions, here and below, is the model's choice (log 10). -/
def Obligations.PrefixClass1Rows : Prop :=
  ∀ (s : State) (p : Byte),
    (p.toNat ≤ 127 →
      exec (.pfxC1A p) s = .next (s.served p (classAnswer 1 (p.setWidth 64) s.decAvail))) ∧
    (128 ≤ p.toNat ∧ p.toNat ≤ 191 →
      exec (.pfxC1B p) s = .next (s.served p (classAnswer 1 (p.setWidth 64) s.decAvail))) ∧
    (192 ≤ p.toNat ∧ p.toNat ≤ 223 →
      exec (.pfxC1C p) s = .next (s.served p (classAnswer 1 (p.setWidth 64) s.decAvail))) ∧
    (224 ≤ p.toNat ∧ p.toNat ≤ 239 →
      exec (.pfxC1D p) s = .next (s.served p (classAnswer 1 (p.setWidth 64) s.decAvail))) ∧
    exec .pfxC1E s = .next (s.served 0xF0#8 (classAnswer 1 240#64 s.decAvail))

/-- R136 on the four class-2 rows; the next state, whole (log 10). -/
def Obligations.PrefixClass2Rows : Prop :=
  ∀ (s : State) (p : Byte),
    exec .pfxC2A s = .next (s.served 0xF1#8 (classAnswer 2 (s.decByte[1].setWidth 64 + 240#64) s.decAvail)) ∧
    (242 ≤ p.toNat ∧ p.toNat ≤ 243 →
      exec (.pfxC2B p) s = .next (s.served p (classAnswer 2
        ((p.setWidth 64 - 241#64) * 256#64 + s.decByte[1].setWidth 64 + 240#64) s.decAvail))) ∧
    (244 ≤ p.toNat ∧ p.toNat ≤ 247 →
      exec (.pfxC2C p) s = .next (s.served p (classAnswer 2
        ((p.setWidth 64 - 241#64) * 256#64 + s.decByte[1].setWidth 64 + 240#64) s.decAvail))) ∧
    exec .pfxC2D s =
      .next (s.served 0xF8#8 (classAnswer 2 (s.decByte[1].setWidth 64 + 2032#64) s.decAvail))

/-- R137 to R143 on the rows of classes 3 to 9; the next state, whole (log 10). -/
def Obligations.PrefixClass3To9Rows : Prop :=
  ∀ s : State,
    exec .pfxC3 s = .next (s.served 0xF9#8 (classAnswer 3
      (2288#64 + 256#64 * s.decByte[1].setWidth 64 + s.decByte[2].setWidth 64) s.decAvail)) ∧
    exec .pfxC4 s = .next (s.served 0xFA#8 (classAnswer 4
      ((s.decByte[1] ++ s.decByte[2] ++ s.decByte[3]).setWidth 64) s.decAvail)) ∧
    exec .pfxC5 s = .next (s.served 0xFB#8 (classAnswer 5
      ((s.decByte[1] ++ s.decByte[2] ++ s.decByte[3] ++ s.decByte[4]).setWidth 64) s.decAvail)) ∧
    exec .pfxC6 s = .next (s.served 0xFC#8 (classAnswer 6
      ((s.decByte[1] ++ s.decByte[2] ++ s.decByte[3] ++ s.decByte[4] ++ s.decByte[5]).setWidth 64)
      s.decAvail)) ∧
    exec .pfxC7 s = .next (s.served 0xFD#8 (classAnswer 7
      ((s.decByte[1] ++ s.decByte[2] ++ s.decByte[3] ++ s.decByte[4] ++ s.decByte[5] ++
        s.decByte[6]).setWidth 64) s.decAvail)) ∧
    exec .pfxC8 s = .next (s.served 0xFE#8 (classAnswer 8
      ((s.decByte[1] ++ s.decByte[2] ++ s.decByte[3] ++ s.decByte[4] ++ s.decByte[5] ++
        s.decByte[6] ++ s.decByte[7]).setWidth 64) s.decAvail)) ∧
    exec .pfxC9 s = .next (s.served 0xFF#8 (classAnswer 9
      ((s.decByte[1] ++ s.decByte[2] ++ s.decByte[3] ++ s.decByte[4] ++ s.decByte[5] ++
        s.decByte[6] ++ s.decByte[7] ++ s.decByte[8]).setWidth 64) s.decAvail))

/-- R130, R131: the row that a first byte selects does what `DEC` does on the same window and available
count. That the prefix rows are run as instructions is the model's choice (log 10). -/
def Obligations.PrefixRowsAgreeWithDec : Prop :=
  ∀ (s : State) (p : Byte),
    exec (decodeFirstByte p) s = exec (.dec s.decAvail (s.decByte.set 0 p)) s

/-! ## Laws of the codec -/

/-- R160: for every value, decoding what `ENC` answered gives the value and its length, with any available
count of at least that length. -/
def Obligations.RoundTripOfEncoding : Prop :=
  ∀ (s : State) (v : Value) (a : Count), s.encOut = none → (encodeValue v).len.toNat ≤ a.toNat →
    ∃ t u : State, exec (.enc v) s = .next t ∧ exec (.dec a t.encByte) t = .next u ∧
      u.responses = s.responses ++ [.enc (encodeValue v),
        .dec ⟨true, v, (encodeValue v).len, (encodeValue v).len⟩]

/-- R161: a byte string of class k whose value is at least LO_k is exactly what the encoder produces for
that value; and what the encoder produces decodes to a value of its class's range. -/
def Obligations.MinimalStringsAreEncodings : Prop :=
  (∀ (a : Count) (w : Lanes), (prefixClass w[0]).len ≤ a.toNat →
    (classRow (prefixClass w[0])).lo ≤ (decodeWindow a w).value.toNat →
    (encodeValue (decodeWindow a w).value).len = (decodeWindow a w).len ∧
    (encodeValue (decodeWindow a w).value).written = w.toList.take (decodeWindow a w).len.toNat) ∧
  (∀ v : Value, (classRow (prefixClass (encodeValue v).bytes[0])).lo ≤ v.toNat)

/-- R165: a truncated encoding of a value that needs k bytes fails with need exactly k; an empty input
with need 1. -/
def Obligations.TruncatedEncodingReportsNeed : Prop :=
  ∀ (v : Value) (a : Count),
    (1 ≤ a.toNat ∧ a.toNat < (encodeValue v).len.toNat →
      decodeWindow a (encodeValue v).bytes = ⟨false, 0#64, 0#4, (encodeValue v).len⟩) ∧
    (a.toNat = 0 → decodeWindow a (encodeValue v).bytes = ⟨false, 0#64, 0#4, 1#4⟩)

/-- R164: a buffer that starts with an encoding of v, followed by any bytes, decodes to v and the
encoding's length, and the step changes nothing outside the decoder's ports, the responses and the
operations in flight. The callers' bytes as one memory, the counter of free lane values and the prefix rows as
instructions are the model's choice (log 3, 5, 10). -/
def Obligations.SelfDelimitingInABuffer : Prop :=
  ∀ (s : State) (caller : Nat) (input : Buffer) (others : List Call) (v : Value),
    s.inFlight = ⟨caller, .decodeFrom input⟩ :: others →
    sharedBuffer s.inFlight = none →
    (encodeValue v).written.length ≤ input.len →
    s.memory.holds input.base (encodeValue v).written →
    ∃ (a : Count) (w : Lanes), step s = .next { s with
      inFlight := others, decAvail := a, decByte := w, undrivenDraws := s.undrivenDraws + 1,
      responses := s.responses ++ [decodedOk v] }

/-- R65: with enough bytes available every string decodes; the strings that the rule lists are exactly those
that decode to a value below LO_k, and exactly those whose value has a shorter encoding; the encoder produces
none of them. -/
def Obligations.NonMinimalStringsListed : Prop :=
  ∀ (a : Count) (w : Lanes), (prefixClass w[0]).len ≤ a.toNat →
    (decodeWindow a w).ok = true ∧ (decodeWindow a w).len.toNat = (prefixClass w[0]).len ∧
    ((decodeWindow a w).value.toNat < (classRow (prefixClass w[0])).lo ↔
      (w[0] = 0xF1#8 ∧ w[1] = 0#8) ∨
      (w[0] = 0xFA#8 ∧ (w[1] ++ w[2] ++ w[3]).toNat < 67824) ∨
      (251 ≤ w[0].toNat ∧ w[1] = 0#8)) ∧
    ((encodeValue (decodeWindow a w).value).len.toNat < (decodeWindow a w).len.toNat ↔
      (decodeWindow a w).value.toNat < (classRow (prefixClass w[0])).lo) ∧
    ((decodeWindow a w).value.toNat < (classRow (prefixClass w[0])).lo →
      ∀ v : Value, (encodeValue v).written ≠ w.toList.take (prefixClass w[0]).len)

/-- R44, R134: the response to the decode of a buffer of n bytes is the same in two states whose memories
agree on the offsets below min(n, need), whatever the memories hold elsewhere; need is the payload of the
first state's response. It speaks of the response: the lanes of the window show every byte below min(n, 9)
(log 19), of a memory that holds the callers' bytes (log 3). -/
def Obligations.DecodeResponseDependsOnNeededBytesOnly : Prop :=
  ∀ (s s' : State) (caller : Nat) (input : Buffer),
    s.inFlight = [⟨caller, .decodeFrom input⟩] → s'.inFlight = [⟨caller, .decodeFrom input⟩] →
    s.responses = s'.responses →
    s.memory.agreeOn s'.memory input
      (min input.len (decodeWindow (availOf input.len) (s.window input)).need.toNat) →
    ∃ t t' : State, step s = .next t ∧ step s' = .next t' ∧ t.responses = t'.responses ∧
      t.responses = s.responses ++ [.dec (decodeWindow (availOf input.len) (s.window input))]

/-! ## Independence of the operations -/

/-- R28, R191: what a well-formed or ill-formed instruction answers depends on the operands, the attached
buffer and the decoder's window only; nothing left by an earlier operation takes part. -/
def Obligations.ResponsesDependOnInputsOnly : Prop :=
  ∀ (i : Instr) (s s' : State), s.encOut = s'.encOut → s.decAvail = s'.decAvail → s.decByte = s'.decByte →
    ∃ (t t' : State) (l : List Response), exec i s = .next t ∧ exec i s' = .next t' ∧
      t.responses = s.responses ++ l ∧ t'.responses = s'.responses ++ l

/-- R70, R191: the response of a decode is what the decoder's output ports carry in the next state, and the
port-level response of an encode is what the encoder's output ports carry. -/
def Obligations.ResponsesCarryThePorts : Prop :=
  ∀ (i : Instr) (s : State), i.wf = true → s.encOut = none →
    ∃ t : State, exec i s = .next t ∧
      t.responses = s.responses ++ [match i with
        | .enc _ => .enc t.encOutputs
        | _ => .dec t.decOutputs]

/-- R28, R182: `ENC` and `DEC` do not affect each other: in either order they reach the same state, but for
the order of the two responses. -/
def Obligations.EncAndDecCommute : Prop :=
  ∀ (s : State) (v : Value) (a : Count) (w : Lanes),
    ∃ t u t' u' : State, exec (.enc v) s = .next t ∧ exec (.dec a w) t = .next u ∧
      exec (.dec a w) s = .next t' ∧ exec (.enc v) t' = .next u' ∧
      u = { u' with responses := u.responses } ∧ u.responses.Perm u'.responses ∧
      t.decOutputs = s.decOutputs ∧ t'.encOutputs = s.encOutputs

/-! ## Invariants -/

/-- Every step keeps the canonical form of the callers' memory, from every state that has it. The form is the
model's choice (log 3). -/
def Obligations.StepKeepsMemoryCanonical : Prop :=
  ∀ s t : State, s.memory.wf = true → step s = .next t → t.memory.wf = true

/-- R29: neither mark is ever cleared, whatever step is taken; and the responses so far stay. That the fault
recorded first is the one that stays is the model's choice (log 7), and so is that the responses are a list to
which a step appends at most one (log 4, 14). -/
def Obligations.MarksAreNeverCleared : Prop :=
  ∀ s t : State, step s = .next t →
    (∀ f, s.fault = some f → t.fault = some f) ∧ (s.refused = true → t.refused = true) ∧
    ∃ l : List Response, l.length ≤ 1 ∧ t.responses = s.responses ++ l

/-- R43, R44, R46: a step writes at most nine bytes, and only from the start of the output buffer of the
operation whose turn it is; a decode writes nothing. The callers' bytes as one memory are the model's choice
(log 3). -/
def Obligations.StepWritesOnlyTheOutputBuffer : Prop :=
  ∀ (s t : State) (a : Nat), step s = .next t →
    (∀ (c : Call) (others : List Call) (b : Buffer), s.inFlight = c :: others → c.outBuffer = some b →
      ¬ (b.base ≤ a ∧ a < b.base + min b.len 9)) →
    t.memory.read a = s.memory.read a

/-! ## The callers' protocols -/

/-- R197: a stream of n bytes ends within n steps. That an empty stream takes one step of the model is the
model's choice (log 13). -/
def Obligations.StreamEndsWithinItsLength : Prop :=
  ∀ (s : State) (caller : Nat) (input : Buffer),
    s.inFlight = [⟨caller, .streamFrom input 0⟩] → s.upcoming = [] →
    ∃ (n : Nat) (t : State), n ≤ max 1 input.len ∧ core.run n s = .next t ∧ t.finished = true ∧
      t.memory = s.memory

/-- R164, R197: the stream protocol over a concatenation of encodings gives the values, in order. How
the caller goes on and where its bytes are is as log 13 and 3 say. -/
def Obligations.StreamDecodesConcatenation : Prop :=
  ∀ (s : State) (caller : Nat) (input : Buffer) (vs : List Value),
    vs ≠ [] → s.inFlight = [⟨caller, .streamFrom input 0⟩] → s.upcoming = [] →
    input.len = (concatEncodings vs).length → s.memory.holds input.base (concatEncodings vs) →
    ∃ t : State, core.run vs.length s = .next t ∧ t.finished = true ∧
      t.responses = s.responses ++ vs.map decodedOk ∧ t.memory = s.memory ∧
      t.fault = s.fault ∧ t.refused = s.refused

/-- R43, R197: encoding a sequence writes the concatenation of the encodings from the buffer's start, when
the buffer has nine bytes for each value. How the caller goes on and where its bytes are is as log 13 and 3
say. -/
def Obligations.SequenceEncodesConcatenation : Prop :=
  ∀ (s : State) (caller : Nat) (out : Buffer) (vs : List Value),
    vs ≠ [] → s.inFlight = [⟨caller, .encodeSeq vs out⟩] → s.upcoming = [] →
    9 * vs.length ≤ out.len → s.memory.wf = true →
    ∃ t : State, core.run vs.length s = .next t ∧ t.finished = true ∧
      t.responses = s.responses ++ vs.map (fun v => .wrote (encodeValue v).len) ∧
      t.memory.holds out.base (concatEncodings vs) ∧
      (∀ a : Nat, ¬ (out.base ≤ a ∧ a < out.base + (concatEncodings vs).length) →
        t.memory.read a = s.memory.read a) ∧
      t.fault = s.fault ∧ t.refused = s.refused

/-- R165, R175, R197: the retry protocol on a source that starts with the encoding of v, from nothing
arrived: insufficient input with need 1, then, for a longer encoding, insufficient input with need its
length, then the value. That the caller obtains exactly `need` bytes is the model's choice (log 13). -/
def Obligations.RetryObtainsTheValue : Prop :=
  ∀ (s : State) (caller : Nat) (input : Buffer) (v : Value),
    s.inFlight = [⟨caller, .retryFrom input 0⟩] → s.upcoming = [] →
    (encodeValue v).written.length ≤ input.len → s.memory.holds input.base (encodeValue v).written →
    ∃ t : State, core.run (if (encodeValue v).len = 1#4 then 2 else 3) s = .next t ∧ t.finished = true ∧
      t.responses = s.responses ++ [.dec ⟨false, 0#64, 0#4, 1#4⟩] ++
        (if (encodeValue v).len = 1#4 then [] else [.dec ⟨false, 0#64, 0#4, (encodeValue v).len⟩]) ++
        [decodedOk v] ∧
      t.memory = s.memory ∧ t.fault = s.fault ∧ t.refused = s.refused
end

