-- ==== Sys2Proof/Laws/Memory.lean ====
section
/-! SUPPORT. The laws of the callers' bytes: a read after a write gives the value written, a write leaves
every other byte alone, and every operation keeps the canonical form. -/

namespace Sys2Proof.Machine

@[simp] theorem Memory.read_nil (x : Nat) : Memory.read [] x = unlistedByte := rfl

theorem Memory.read_erase_of_ne (m : Memory) (x y : Nat) (h : x ≠ y) :
    (m.erase x).read y = m.read y := by
  induction m with
  | nil => rfl
  | cons c rest ih =>
    obtain ⟨a, b⟩ := c
    by_cases hax : a = x
    · subst hax; simp [Memory.erase, Memory.read, h]
    · simp [Memory.erase, hax, Memory.read, ih]

theorem Memory.read_insert (m : Memory) (x y : Nat) (v : Byte) :
    (m.insert x v).read y = if x = y then v else m.read y := by
  induction m with
  | nil => simp [Memory.insert, Memory.read]
  | cons c rest ih =>
    obtain ⟨a, b⟩ := c
    unfold Memory.insert
    split
    · simp [Memory.read]
    · split
      · rename_i _ hax
        subst hax
        by_cases hay : a = y <;> simp [Memory.read, hay]
      · rename_i _ hax
        by_cases hay : a = y
        · subst hay; simp [Memory.read, Ne.symm hax]
        · simp [Memory.read, hay, ih]

/-- A write leaves every other byte alone. -/
theorem Memory.read_write_of_ne (m : Memory) (x y : Nat) (v : Byte) (h : x ≠ y) :
    (m.write x v).read y = m.read y := by
  unfold Memory.write
  split
  · exact m.read_erase_of_ne x y h
  · simp [m.read_insert, h]

/-- Below the first listed address every byte reads as unlisted. -/
theorem Memory.read_of_lt_wfFrom (m : Memory) (lo x : Nat) (h : m.wfFrom lo = true) (hx : x < lo) :
    m.read x = unlistedByte := by
  induction m generalizing lo with
  | nil => rfl
  | cons c rest ih =>
    obtain ⟨a, b⟩ := c
    simp only [Memory.wfFrom, Bool.and_eq_true, decide_eq_true_eq] at h
    have : a ≠ x := by omega
    simp only [Memory.read, if_neg this]
    exact ih (a + 1) h.2 (by omega)

theorem Memory.read_erase_self (m : Memory) (lo x : Nat) (h : m.wfFrom lo = true) :
    (m.erase x).read x = unlistedByte := by
  induction m generalizing lo with
  | nil => rfl
  | cons c rest ih =>
    obtain ⟨a, b⟩ := c
    simp only [Memory.wfFrom, Bool.and_eq_true, decide_eq_true_eq] at h
    by_cases hax : a = x
    · subst hax
      simpa [Memory.erase] using Memory.read_of_lt_wfFrom rest (a + 1) a h.2 (by omega)
    · simpa [Memory.erase, hax, Memory.read] using ih (a + 1) h.2

/-- A read after a write to the same address gives the value written. -/
theorem Memory.read_write_self (m : Memory) (x : Nat) (v : Byte) (h : m.wf = true) :
    (m.write x v).read x = v := by
  unfold Memory.write
  split
  · rename_i hv
    rw [m.read_erase_self 0 x h, hv]
  · simp [m.read_insert]

theorem Memory.wfFrom_mono (m : Memory) (lo lo' : Nat) (hle : lo' ≤ lo) (h : m.wfFrom lo = true) :
    m.wfFrom lo' = true := by
  cases m with
  | nil => rfl
  | cons c rest =>
    simp only [Memory.wfFrom, Bool.and_eq_true, decide_eq_true_eq] at h ⊢
    exact ⟨⟨by omega, h.1.2⟩, h.2⟩

theorem Memory.wfFrom_erase (m : Memory) (lo x : Nat) (h : m.wfFrom lo = true) :
    (m.erase x).wfFrom lo = true := by
  induction m generalizing lo with
  | nil => rfl
  | cons c rest ih =>
    obtain ⟨a, b⟩ := c
    simp only [Memory.wfFrom, Bool.and_eq_true, decide_eq_true_eq] at h
    by_cases hax : a = x
    · simpa [Memory.erase, hax] using Memory.wfFrom_mono rest (a + 1) lo (by omega) h.2
    · simp only [Memory.erase, if_neg hax, Memory.wfFrom, Bool.and_eq_true, decide_eq_true_eq]
      exact ⟨h.1, ih (a + 1) h.2⟩

theorem Memory.wfFrom_insert (m : Memory) (lo x : Nat) (v : Byte) (hlo : lo ≤ x)
    (hv : v ≠ unlistedByte) (h : m.wfFrom lo = true) : (m.insert x v).wfFrom lo = true := by
  induction m generalizing lo with
  | nil => simp [Memory.insert, Memory.wfFrom, hlo, hv]
  | cons c rest ih =>
    obtain ⟨a, b⟩ := c
    simp only [Memory.wfFrom, Bool.and_eq_true, decide_eq_true_eq] at h
    unfold Memory.insert
    split
    · simp only [Memory.wfFrom, Bool.and_eq_true, decide_eq_true_eq]
      exact ⟨⟨hlo, hv⟩, ⟨⟨by omega, h.1.2⟩, h.2⟩⟩
    · split
      · rename_i _ hax
        subst hax
        simp only [Memory.wfFrom, Bool.and_eq_true, decide_eq_true_eq]
        exact ⟨⟨hlo, hv⟩, h.2⟩
      · simp only [Memory.wfFrom, Bool.and_eq_true, decide_eq_true_eq]
        exact ⟨h.1, ih (a + 1) (by omega) h.2⟩

/-- A write keeps the canonical form. -/
theorem Memory.wf_write (m : Memory) (x : Nat) (v : Byte) (h : m.wf = true) : (m.write x v).wf = true := by
  unfold Memory.write Memory.wf
  split
  · exact m.wfFrom_erase 0 x h
  · rename_i hv
    exact m.wfFrom_insert 0 x v (Nat.zero_le x) hv h

/-- A write of several bytes keeps the canonical form. -/
theorem Memory.wf_writeBytes (m : Memory) (x : Nat) (bs : List Byte) (h : m.wf = true) :
    (m.writeBytes x bs).wf = true := by
  induction bs generalizing m x with
  | nil => exact h
  | cons b bs ih => exact ih (m.write x b) (x + 1) (m.wf_write x b h)

/-- A write of several bytes leaves every byte outside them alone. -/
theorem Memory.read_writeBytes_of_outside (m : Memory) (x y : Nat) (bs : List Byte)
    (h : ¬ (x ≤ y ∧ y < x + bs.length)) : (m.writeBytes x bs).read y = m.read y := by
  induction bs generalizing m x with
  | nil => rfl
  | cons b bs ih =>
    simp only [List.length_cons] at h
    rw [Memory.writeBytes, ih (m.write x b) (x + 1) (by omega), m.read_write_of_ne x y b (by omega)]

/-- After a write of several bytes each of them reads back. -/
theorem Memory.read_writeBytes_inside (m : Memory) (x i : Nat) (bs : List Byte) (h : m.wf = true)
    (hi : i < bs.length) : (m.writeBytes x bs).read (x + i) = bs.getD i 0#8 := by
  induction bs generalizing m x i with
  | nil => simp at hi
  | cons b bs ih =>
    rw [Memory.writeBytes]
    cases i with
    | zero =>
      rw [Memory.read_writeBytes_of_outside _ _ _ _ (by omega)]
      simpa using m.read_write_self x b h
    | succ j =>
      have := ih (m.write x b) (x + 1) j (m.wf_write x b h) (by simpa using hi)
      rw [show x + (j + 1) = x + 1 + j by omega, this]
      simp

theorem Memory.wfFrom_ext (m m' : Memory) (lo lo' : Nat) (h : m.wfFrom lo = true)
    (h' : m'.wfFrom lo' = true) (hr : ∀ x, m.read x = m'.read x) : m = m' := by
  induction m generalizing lo lo' m' with
  | nil =>
    cases m' with
    | nil => rfl
    | cons c rest =>
      obtain ⟨a, b⟩ := c
      simp only [Memory.wfFrom, Bool.and_eq_true, decide_eq_true_eq] at h'
      exact absurd (by simpa [Memory.read] using (hr a).symm) h'.1.2
  | cons c rest ih =>
    obtain ⟨a, b⟩ := c
    simp only [Memory.wfFrom, Bool.and_eq_true, decide_eq_true_eq] at h
    cases m' with
    | nil => exact absurd (by simpa [Memory.read] using hr a) h.1.2
    | cons c' rest' =>
      obtain ⟨a', b'⟩ := c'
      simp only [Memory.wfFrom, Bool.and_eq_true, decide_eq_true_eq] at h'
      have ha : a = a' := by
        rcases Nat.lt_trichotomy a a' with hlt | heq | hgt
        · have := hr a
          rw [Memory.read, if_pos rfl, Memory.read, if_neg (by omega),
            Memory.read_of_lt_wfFrom rest' (a' + 1) a h'.2 (by omega)] at this
          exact absurd this h.1.2
        · exact heq
        · have := hr a'
          rw [Memory.read, if_neg (by omega), Memory.read_of_lt_wfFrom rest (a + 1) a' h.2 (by omega),
            Memory.read, if_pos rfl] at this
          exact absurd this.symm h'.1.2
      subst ha
      have hb : b = b' := by simpa [Memory.read] using hr a
      subst hb
      have : rest = rest' := by
        refine ih rest' (a + 1) (a + 1) h.2 h'.2 fun x => ?_
        by_cases hx : a = x
        · subst hx
          rw [Memory.read_of_lt_wfFrom rest (a + 1) a h.2 (by omega),
            Memory.read_of_lt_wfFrom rest' (a + 1) a h'.2 (by omega)]
        · simpa [Memory.read, hx] using hr x
      rw [this]

/-- Canonical memories that read the same everywhere are equal data. -/
theorem Memory.ext_of_read (m m' : Memory) (h : m.wf = true) (h' : m'.wf = true)
    (hr : ∀ x, m.read x = m'.read x) : m = m' :=
  Memory.wfFrom_ext m m' 0 0 h h' hr

end Sys2Proof.Machine
end

