-- ==== Sys2Proof/Laws/State.lean ====
section
/-! SUPPORT. One lemma per field per update of the state, so that no proof unfolds a record update. -/

namespace Sys2Proof.Machine

/-! ## driveEnc -/

@[simp] theorem State.driveEnc_encValue (s : State) (v : Value) :
    (s.driveEnc v).encValue = v := rfl
@[simp] theorem State.driveEnc_encOut (s : State) (v : Value) :
    (s.driveEnc v).encOut = s.encOut := rfl
@[simp] theorem State.driveEnc_decAvail (s : State) (v : Value) :
    (s.driveEnc v).decAvail = s.decAvail := rfl
@[simp] theorem State.driveEnc_decByte (s : State) (v : Value) :
    (s.driveEnc v).decByte = s.decByte := rfl
@[simp] theorem State.driveEnc_memory (s : State) (v : Value) :
    (s.driveEnc v).memory = s.memory := rfl
@[simp] theorem State.driveEnc_inFlight (s : State) (v : Value) :
    (s.driveEnc v).inFlight = s.inFlight := rfl
@[simp] theorem State.driveEnc_upcoming (s : State) (v : Value) :
    (s.driveEnc v).upcoming = s.upcoming := rfl
@[simp] theorem State.driveEnc_responses (s : State) (v : Value) :
    (s.driveEnc v).responses = s.responses := rfl
@[simp] theorem State.driveEnc_undrivenDraws (s : State) (v : Value) :
    (s.driveEnc v).undrivenDraws = s.undrivenDraws := rfl
@[simp] theorem State.driveEnc_fault (s : State) (v : Value) :
    (s.driveEnc v).fault = s.fault := rfl
@[simp] theorem State.driveEnc_refused (s : State) (v : Value) :
    (s.driveEnc v).refused = s.refused := rfl

/-! ## driveDec -/

@[simp] theorem State.driveDec_encValue (s : State) (a : Count) (w : Lanes) :
    (s.driveDec a w).encValue = s.encValue := rfl
@[simp] theorem State.driveDec_encOut (s : State) (a : Count) (w : Lanes) :
    (s.driveDec a w).encOut = s.encOut := rfl
@[simp] theorem State.driveDec_decAvail (s : State) (a : Count) (w : Lanes) :
    (s.driveDec a w).decAvail = a := rfl
@[simp] theorem State.driveDec_decByte (s : State) (a : Count) (w : Lanes) :
    (s.driveDec a w).decByte = w := rfl
@[simp] theorem State.driveDec_memory (s : State) (a : Count) (w : Lanes) :
    (s.driveDec a w).memory = s.memory := rfl
@[simp] theorem State.driveDec_inFlight (s : State) (a : Count) (w : Lanes) :
    (s.driveDec a w).inFlight = s.inFlight := rfl
@[simp] theorem State.driveDec_upcoming (s : State) (a : Count) (w : Lanes) :
    (s.driveDec a w).upcoming = s.upcoming := rfl
@[simp] theorem State.driveDec_responses (s : State) (a : Count) (w : Lanes) :
    (s.driveDec a w).responses = s.responses := rfl
@[simp] theorem State.driveDec_undrivenDraws (s : State) (a : Count) (w : Lanes) :
    (s.driveDec a w).undrivenDraws = s.undrivenDraws := rfl
@[simp] theorem State.driveDec_fault (s : State) (a : Count) (w : Lanes) :
    (s.driveDec a w).fault = s.fault := rfl
@[simp] theorem State.driveDec_refused (s : State) (a : Count) (w : Lanes) :
    (s.driveDec a w).refused = s.refused := rfl

/-! ## attach -/

@[simp] theorem State.attach_encValue (s : State) (out : Option Buffer) :
    (s.attach out).encValue = s.encValue := rfl
@[simp] theorem State.attach_encOut (s : State) (out : Option Buffer) :
    (s.attach out).encOut = out := rfl
@[simp] theorem State.attach_decAvail (s : State) (out : Option Buffer) :
    (s.attach out).decAvail = s.decAvail := rfl
@[simp] theorem State.attach_decByte (s : State) (out : Option Buffer) :
    (s.attach out).decByte = s.decByte := rfl
@[simp] theorem State.attach_memory (s : State) (out : Option Buffer) :
    (s.attach out).memory = s.memory := rfl
@[simp] theorem State.attach_inFlight (s : State) (out : Option Buffer) :
    (s.attach out).inFlight = s.inFlight := rfl
@[simp] theorem State.attach_upcoming (s : State) (out : Option Buffer) :
    (s.attach out).upcoming = s.upcoming := rfl
@[simp] theorem State.attach_responses (s : State) (out : Option Buffer) :
    (s.attach out).responses = s.responses := rfl
@[simp] theorem State.attach_undrivenDraws (s : State) (out : Option Buffer) :
    (s.attach out).undrivenDraws = s.undrivenDraws := rfl
@[simp] theorem State.attach_fault (s : State) (out : Option Buffer) :
    (s.attach out).fault = s.fault := rfl
@[simp] theorem State.attach_refused (s : State) (out : Option Buffer) :
    (s.attach out).refused = s.refused := rfl

/-! ## respond -/

@[simp] theorem State.respond_encValue (s : State) (r : Response) :
    (s.respond r).encValue = s.encValue := rfl
@[simp] theorem State.respond_encOut (s : State) (r : Response) :
    (s.respond r).encOut = s.encOut := rfl
@[simp] theorem State.respond_decAvail (s : State) (r : Response) :
    (s.respond r).decAvail = s.decAvail := rfl
@[simp] theorem State.respond_decByte (s : State) (r : Response) :
    (s.respond r).decByte = s.decByte := rfl
@[simp] theorem State.respond_memory (s : State) (r : Response) :
    (s.respond r).memory = s.memory := rfl
@[simp] theorem State.respond_inFlight (s : State) (r : Response) :
    (s.respond r).inFlight = s.inFlight := rfl
@[simp] theorem State.respond_upcoming (s : State) (r : Response) :
    (s.respond r).upcoming = s.upcoming := rfl
@[simp] theorem State.respond_responses (s : State) (r : Response) :
    (s.respond r).responses = s.responses ++ [r] := rfl
@[simp] theorem State.respond_undrivenDraws (s : State) (r : Response) :
    (s.respond r).undrivenDraws = s.undrivenDraws := rfl
@[simp] theorem State.respond_fault (s : State) (r : Response) :
    (s.respond r).fault = s.fault := rfl
@[simp] theorem State.respond_refused (s : State) (r : Response) :
    (s.respond r).refused = s.refused := rfl

/-! ## storeBytes -/

@[simp] theorem State.storeBytes_encValue (s : State) (x : Nat) (bs : List Byte) :
    (s.storeBytes x bs).encValue = s.encValue := rfl
@[simp] theorem State.storeBytes_encOut (s : State) (x : Nat) (bs : List Byte) :
    (s.storeBytes x bs).encOut = s.encOut := rfl
@[simp] theorem State.storeBytes_decAvail (s : State) (x : Nat) (bs : List Byte) :
    (s.storeBytes x bs).decAvail = s.decAvail := rfl
@[simp] theorem State.storeBytes_decByte (s : State) (x : Nat) (bs : List Byte) :
    (s.storeBytes x bs).decByte = s.decByte := rfl
@[simp] theorem State.storeBytes_memory (s : State) (x : Nat) (bs : List Byte) :
    (s.storeBytes x bs).memory = s.memory.writeBytes x bs := rfl
@[simp] theorem State.storeBytes_inFlight (s : State) (x : Nat) (bs : List Byte) :
    (s.storeBytes x bs).inFlight = s.inFlight := rfl
@[simp] theorem State.storeBytes_upcoming (s : State) (x : Nat) (bs : List Byte) :
    (s.storeBytes x bs).upcoming = s.upcoming := rfl
@[simp] theorem State.storeBytes_responses (s : State) (x : Nat) (bs : List Byte) :
    (s.storeBytes x bs).responses = s.responses := rfl
@[simp] theorem State.storeBytes_undrivenDraws (s : State) (x : Nat) (bs : List Byte) :
    (s.storeBytes x bs).undrivenDraws = s.undrivenDraws := rfl
@[simp] theorem State.storeBytes_fault (s : State) (x : Nat) (bs : List Byte) :
    (s.storeBytes x bs).fault = s.fault := rfl
@[simp] theorem State.storeBytes_refused (s : State) (x : Nat) (bs : List Byte) :
    (s.storeBytes x bs).refused = s.refused := rfl

/-! ## recordFault -/

@[simp] theorem State.recordFault_encValue (s : State) (f : ModelFault) :
    (s.recordFault f).encValue = s.encValue := rfl
@[simp] theorem State.recordFault_encOut (s : State) (f : ModelFault) :
    (s.recordFault f).encOut = s.encOut := rfl
@[simp] theorem State.recordFault_decAvail (s : State) (f : ModelFault) :
    (s.recordFault f).decAvail = s.decAvail := rfl
@[simp] theorem State.recordFault_decByte (s : State) (f : ModelFault) :
    (s.recordFault f).decByte = s.decByte := rfl
@[simp] theorem State.recordFault_memory (s : State) (f : ModelFault) :
    (s.recordFault f).memory = s.memory := rfl
@[simp] theorem State.recordFault_inFlight (s : State) (f : ModelFault) :
    (s.recordFault f).inFlight = s.inFlight := rfl
@[simp] theorem State.recordFault_upcoming (s : State) (f : ModelFault) :
    (s.recordFault f).upcoming = s.upcoming := rfl
@[simp] theorem State.recordFault_responses (s : State) (f : ModelFault) :
    (s.recordFault f).responses = s.responses := rfl
@[simp] theorem State.recordFault_undrivenDraws (s : State) (f : ModelFault) :
    (s.recordFault f).undrivenDraws = s.undrivenDraws := rfl
@[simp] theorem State.recordFault_fault (s : State) (f : ModelFault) :
    (s.recordFault f).fault = s.fault.or (some f) := rfl
@[simp] theorem State.recordFault_refused (s : State) (f : ModelFault) :
    (s.recordFault f).refused = s.refused := rfl

/-! ## markRefused -/

@[simp] theorem State.markRefused_encValue (s : State) :
    (s.markRefused).encValue = s.encValue := rfl
@[simp] theorem State.markRefused_encOut (s : State) :
    (s.markRefused).encOut = s.encOut := rfl
@[simp] theorem State.markRefused_decAvail (s : State) :
    (s.markRefused).decAvail = s.decAvail := rfl
@[simp] theorem State.markRefused_decByte (s : State) :
    (s.markRefused).decByte = s.decByte := rfl
@[simp] theorem State.markRefused_memory (s : State) :
    (s.markRefused).memory = s.memory := rfl
@[simp] theorem State.markRefused_inFlight (s : State) :
    (s.markRefused).inFlight = s.inFlight := rfl
@[simp] theorem State.markRefused_upcoming (s : State) :
    (s.markRefused).upcoming = s.upcoming := rfl
@[simp] theorem State.markRefused_responses (s : State) :
    (s.markRefused).responses = s.responses := rfl
@[simp] theorem State.markRefused_undrivenDraws (s : State) :
    (s.markRefused).undrivenDraws = s.undrivenDraws := rfl
@[simp] theorem State.markRefused_fault (s : State) :
    (s.markRefused).fault = s.fault := rfl
@[simp] theorem State.markRefused_refused (s : State) :
    (s.markRefused).refused = true := rfl

/-! ## fly -/

@[simp] theorem State.fly_encValue (s : State) (calls : List Call) :
    (s.fly calls).encValue = s.encValue := rfl
@[simp] theorem State.fly_encOut (s : State) (calls : List Call) :
    (s.fly calls).encOut = s.encOut := rfl
@[simp] theorem State.fly_decAvail (s : State) (calls : List Call) :
    (s.fly calls).decAvail = s.decAvail := rfl
@[simp] theorem State.fly_decByte (s : State) (calls : List Call) :
    (s.fly calls).decByte = s.decByte := rfl
@[simp] theorem State.fly_memory (s : State) (calls : List Call) :
    (s.fly calls).memory = s.memory := rfl
@[simp] theorem State.fly_inFlight (s : State) (calls : List Call) :
    (s.fly calls).inFlight = calls := rfl
@[simp] theorem State.fly_upcoming (s : State) (calls : List Call) :
    (s.fly calls).upcoming = s.upcoming := rfl
@[simp] theorem State.fly_responses (s : State) (calls : List Call) :
    (s.fly calls).responses = s.responses := rfl
@[simp] theorem State.fly_undrivenDraws (s : State) (calls : List Call) :
    (s.fly calls).undrivenDraws = s.undrivenDraws := rfl
@[simp] theorem State.fly_fault (s : State) (calls : List Call) :
    (s.fly calls).fault = s.fault := rfl
@[simp] theorem State.fly_refused (s : State) (calls : List Call) :
    (s.fly calls).refused = s.refused := rfl

/-! ## draw -/

@[simp] theorem State.draw_encValue (s : State) :
    (s.draw).encValue = s.encValue := rfl
@[simp] theorem State.draw_encOut (s : State) :
    (s.draw).encOut = s.encOut := rfl
@[simp] theorem State.draw_decAvail (s : State) :
    (s.draw).decAvail = s.decAvail := rfl
@[simp] theorem State.draw_decByte (s : State) :
    (s.draw).decByte = s.decByte := rfl
@[simp] theorem State.draw_memory (s : State) :
    (s.draw).memory = s.memory := rfl
@[simp] theorem State.draw_inFlight (s : State) :
    (s.draw).inFlight = s.inFlight := rfl
@[simp] theorem State.draw_upcoming (s : State) :
    (s.draw).upcoming = s.upcoming := rfl
@[simp] theorem State.draw_responses (s : State) :
    (s.draw).responses = s.responses := rfl
@[simp] theorem State.draw_undrivenDraws (s : State) :
    (s.draw).undrivenDraws = s.undrivenDraws + 1 := rfl
@[simp] theorem State.draw_fault (s : State) :
    (s.draw).fault = s.fault := rfl
@[simp] theorem State.draw_refused (s : State) :
    (s.draw).refused = s.refused := rfl

end Sys2Proof.Machine
end

