-- ==== Sys2Proof/Laws/Units.lean ====
section
/-! SUPPORT. The two units as functions: one lemma per shared operation that says what it gives, so that
proofs cite it and do not unfold the table. -/

namespace Sys2Proof.Machine

/-! ## The table -/

@[simp] theorem LengthClass.len_c1 : LengthClass.len .c1 = 1 := rfl
@[simp] theorem LengthClass.len_c2 : LengthClass.len .c2 = 2 := rfl
@[simp] theorem LengthClass.len_c3 : LengthClass.len .c3 = 3 := rfl
@[simp] theorem LengthClass.len_c4 : LengthClass.len .c4 = 4 := rfl
@[simp] theorem LengthClass.len_c5 : LengthClass.len .c5 = 5 := rfl
@[simp] theorem LengthClass.len_c6 : LengthClass.len .c6 = 6 := rfl
@[simp] theorem LengthClass.len_c7 : LengthClass.len .c7 = 7 := rfl
@[simp] theorem LengthClass.len_c8 : LengthClass.len .c8 = 8 := rfl
@[simp] theorem LengthClass.len_c9 : LengthClass.len .c9 = 9 := rfl

theorem LengthClass.len_pos (k : LengthClass) : 1 ≤ k.len := by cases k <;> decide

theorem LengthClass.len_le_nine (k : LengthClass) : k.len ≤ 9 := by cases k <;> decide

theorem LengthClass.len_injective (j k : LengthClass) (h : j.len = k.len) : j = k := by
  cases j <;> cases k <;> first | rfl | exact absurd h (by decide)

/-- The 4-bit port holds every class length. -/
@[simp] theorem LengthClass.toNat_count (k : LengthClass) : k.count.toNat = k.len := by
  cases k <;> rfl

/-- `SELECT` gives the class whose value range holds the value. -/
theorem selectClass_range (v : Value) :
    (classRow (selectClass v)).lo ≤ v.toNat ∧ v.toNat ≤ (classRow (selectClass v)).hi := by
  have := v.isLt
  unfold selectClass
  split_ifs <;> simp only [classRow] at * <;> omega

/-- The value ranges do not overlap. -/
theorem selectClass_eq (v : Value) (k : LengthClass) (hlo : (classRow k).lo ≤ v.toNat)
    (hhi : v.toNat ≤ (classRow k).hi) : selectClass v = k := by
  have h := selectClass_range v
  generalize selectClass v = j at h
  cases j <;> cases k <;> first | rfl | (simp only [classRow] at h hlo hhi; omega)

/-- The parser gives the class whose prefix range holds the byte. -/
theorem prefixClass_range (p : Byte) :
    (classRow (prefixClass p)).prefixLo ≤ p.toNat ∧ p.toNat ≤ (classRow (prefixClass p)).prefixHi := by
  have := p.isLt
  unfold prefixClass
  split_ifs <;> simp only [classRow] at * <;> omega

/-- The prefix ranges do not overlap. -/
theorem prefixClass_eq (p : Byte) (k : LengthClass) (hlo : (classRow k).prefixLo ≤ p.toNat)
    (hhi : p.toNat ≤ (classRow k).prefixHi) : prefixClass p = k := by
  have h := prefixClass_range p
  generalize prefixClass p = j at h
  cases j <;> cases k <;> first | rfl | (simp only [classRow] at h hlo hhi; omega)

/-- The prefix byte that the generator gives for a class lies in that class's prefix range. -/
theorem prefixClass_prefixByte (v : Value) : prefixClass (prefixByte (selectClass v) v) = selectClass v := by
  have h := selectClass_range v
  generalize selectClass v = k at h
  apply prefixClass_eq <;> cases k <;>
    simp [prefixByte, classRow, BitVec.extractLsb'_toNat] at h ⊢ <;> omega

/-! ## The encoder -/

@[simp] theorem encodeValue_len (v : Value) : (encodeValue v).len.toNat = (selectClass v).len :=
  (selectClass v).toNat_count

/-- Lane i of the encoder's output. -/
theorem encLanes_getElem (k : LengthClass) (v : Value) (i : Nat) (h : i < 9) :
    (encLanes k v)[i] = encLane k v i := by
  interval_cases i <;> rfl

@[simp] theorem encodeValue_getElem (v : Value) (i : Nat) (h : i < 9) :
    (encodeValue v).bytes[i] = encLane (selectClass v) v i :=
  encLanes_getElem (selectClass v) v i h

@[simp] theorem EncResult.length_written (v : Value) :
    (encodeValue v).written.length = (selectClass v).len := by
  have := (selectClass v).len_le_nine
  simp [EncResult.written]
  omega

/-- Byte i of the encoding of a value. -/
theorem EncResult.written_getD (v : Value) (i : Nat) (h : i < (selectClass v).len) :
    (encodeValue v).written.getD i 0#8 = encLane (selectClass v) v i := by
  have h9 : i < 9 := Nat.lt_of_lt_of_le h (selectClass v).len_le_nine
  rw [List.getD_eq_getElem _ _ (by simpa using h)]
  simp [EncResult.written]

/-! ## The decoder -/

/-- With enough bytes available the class's value and length come out. -/
theorem classResult_of_le (k : LengthClass) (value : Value) (a : Count) (h : k.len ≤ a.toNat) :
    classResult k value a = ⟨true, value, k.count, k.count⟩ := by
  have hpos := k.len_pos
  have ha : a ≠ 0#4 := by rintro rfl; simp at h; omega
  simp [classResult, requiredLength, available, ha, h]

/-- With some bytes but not enough the payload is the class length. -/
theorem classResult_of_lt (k : LengthClass) (value : Value) (a : Count) (h : a.toNat < k.len)
    (ha : 1 ≤ a.toNat) : classResult k value a = ⟨false, 0#64, 0#4, k.count⟩ := by
  have ha : a ≠ 0#4 := by rintro rfl; simp at ha
  simp [classResult, requiredLength, available, ha, insufficient, h]

/-- With no byte available the payload is 1. -/
theorem classResult_of_zero (k : LengthClass) (value : Value) :
    classResult k value 0#4 = ⟨false, 0#64, 0#4, 1#4⟩ := by
  simp [classResult, requiredLength, available, insufficient]

/-- Everything `DEC` can answer. -/
theorem classResult_cases (k : LengthClass) (value : Value) (a : Count) :
    (k.len ≤ a.toNat ∧ classResult k value a = ⟨true, value, k.count, k.count⟩) ∨
    (1 ≤ a.toNat ∧ a.toNat < k.len ∧ classResult k value a = ⟨false, 0#64, 0#4, k.count⟩) ∨
    (a = 0#4 ∧ classResult k value a = ⟨false, 0#64, 0#4, 1#4⟩) := by
  rcases Nat.lt_or_ge a.toNat k.len with h | h
  · rcases Nat.eq_zero_or_pos a.toNat with h0 | h1
    · have ha : a = 0#4 := BitVec.eq_of_toNat_eq (by simpa using h0)
      exact .inr (.inr ⟨ha, by rw [ha]; exact classResult_of_zero k value⟩)
    · exact .inr (.inl ⟨h1, h, classResult_of_lt k value a h h1⟩)
  · exact .inl ⟨h, classResult_of_le k value a h⟩

end Sys2Proof.Machine
end

