-- ==== Sys2Proof/Laws/Meanings.lean ====
section
/-! SUPPORT. What each meaning answers, said once. -/

namespace Sys2Proof.Machine

/-- `ENC` in the port-level view. -/
theorem exec_enc_of_none (v : Value) (s : State) (h : s.encOut = none) :
    exec (.enc v) s = .next ((s.driveEnc v).respond (.enc (encodeValue v))) := by
  simp only [exec, execEnc, h]

/-- `ENC` in the caller-buffer view. -/
theorem exec_enc_of_some (v : Value) (s : State) (out : Buffer) (h : s.encOut = some out) :
    exec (.enc v) s = .next (s.encodeInto v out) := by
  simp only [exec, execEnc, h]

/-- An encode into a buffer of fewer than nine bytes records the fault and does nothing else. -/
theorem State.encodeInto_of_short (s : State) (v : Value) (out : Buffer) (h : out.len < 9) :
    s.encodeInto v out = s.recordFault (.outBufferTooSmall out.len) :=
  if_pos h

/-- An encode into a buffer of nine bytes or more writes the encoding and returns its length. -/
theorem State.encodeInto_of_long (s : State) (v : Value) (out : Buffer) (h : 9 ≤ out.len) :
    s.encodeInto v out =
      ((s.driveEnc v).storeBytes out.base (encodeValue v).written).respond (.wrote (encodeValue v).len) :=
  if_neg (Nat.not_lt.mpr h)

/-- `DEC`. -/
theorem exec_dec (a : Count) (w : Lanes) (s : State) :
    exec (.dec a w) s = .next ((s.driveDec a w).respond (.dec (decodeWindow a w))) := rfl

/-- No meaning stops: every instruction has a next state in every state. -/
theorem exec_total (i : Instr) (s : State) : ∃ t, exec i s = .next t := by
  cases i <;> exact ⟨_, rfl⟩

/-- What a prefix row leaves: the window's first lane, one response, and nothing else. -/
theorem State.decodeClass_eq (s : State) (p : Byte) (k : LengthClass) (f : Lanes → Value) :
    (s.presentFirst p).decodeClass k f =
      { s with decByte := s.decByte.set 0 p,
               responses := s.responses ++ [.dec (classResult k (f (s.decByte.set 0 p)) s.decAvail)] } := rfl

end Sys2Proof.Machine
end

