-- ==== Sys2Proof/Laws/Caller.lean ====
section
/-! SUPPORT. The callers' side: what each operation of Machine/Caller.lean can do, said once. -/

namespace Sys2Proof.Machine

/-! ## Presenting a buffer -/

@[simp] theorem toNat_availOf (n : Nat) : (availOf n).toNat = min n 9 := by
  simp [availOf, Config.maxEncodedLen]

theorem State.window_getElem (s : State) (input : Buffer) (i : Nat) (h : i < 9) :
    (s.window input)[i] = s.windowLane input i := by
  interval_cases i <;> rfl

/-- A lane below min(n, 9) holds the input byte. -/
theorem State.windowLane_of_lt (s : State) (input : Buffer) (i : Nat) (h : i < min input.len 9) :
    s.windowLane input i = s.memory.read (input.base + i) :=
  if_pos h

@[simp] theorem State.present_memory (s : State) (b : Buffer) : (s.present b).memory = s.memory := rfl
@[simp] theorem State.present_responses (s : State) (b : Buffer) : (s.present b).responses = s.responses := rfl
@[simp] theorem State.present_fault (s : State) (b : Buffer) : (s.present b).fault = s.fault := rfl
@[simp] theorem State.present_refused (s : State) (b : Buffer) : (s.present b).refused = s.refused := rfl
@[simp] theorem State.present_inFlight (s : State) (b : Buffer) : (s.present b).inFlight = s.inFlight := rfl
@[simp] theorem State.present_upcoming (s : State) (b : Buffer) : (s.present b).upcoming = s.upcoming := rfl
@[simp] theorem State.present_decAvail (s : State) (b : Buffer) : (s.present b).decAvail = availOf b.len := rfl
@[simp] theorem State.present_decByte (s : State) (b : Buffer) : (s.present b).decByte = s.window b := rfl

/-! ## Issuing -/

/-- A decode of a buffer always becomes an instruction, on the presented ports: `DEC` with nothing available
for an empty buffer, else the row that the first byte selects. -/
theorem State.issueDecode_cases (s : State) (b : Buffer) :
    (b.len = 0 ∧ s.issueDecode b = .run (.dec 0#4 (s.window b)) (s.present b)) ∨
    (b.len ≠ 0 ∧ s.issueDecode b = .run (decodeFirstByte (s.memory.read b.base)) (s.present b)) := by
  by_cases h : b.len = 0
  · exact .inl ⟨h, if_pos h⟩
  · exact .inr ⟨h, if_neg h⟩

/-- A request word becomes its instruction when its reserved bits are 0, and is malformed otherwise. -/
theorem State.issueRequest_cases (s : State) (w : ReqWord) (out : Option Buffer) :
    (reservedClear w = true ∧ s.issueRequest w out = .run (requestInstr w) (s.attach out)) ∨
    (reservedClear w = false ∧ s.issueRequest w out = .malformed (.reservedBitsSet w) s) := by
  cases h : reservedClear w
  · exact .inr ⟨rfl, by simp [State.issueRequest, decode, decodeRequest, h]⟩
  · exact .inl ⟨rfl, by simp [State.issueRequest, decode, decodeRequest, h]⟩

/-- The row that a first byte selects is never a request. -/
theorem encode_decodeFirstByte (p : Byte) : encode (decodeFirstByte p) = .firstByte p := by
  revert p; decide

/-! ## Sharing a buffer -/

/-- An operation shares its buffer exactly when another caller's operation uses a byte of it. -/
theorem sharedWith_eq_some_iff (c : Call) (others : List Call) (b : Buffer) (hb : c.buffer = some b) :
    sharedWith c others = some b ↔
      ∃ d ∈ others, c.caller ≠ d.caller ∧ ∃ e, d.buffer = some e ∧ b.overlaps e = true := by
  have key : ∀ d, c.clashes b d = true ↔ c.caller ≠ d.caller ∧ ∃ e, d.buffer = some e ∧ b.overlaps e = true := by
    intro d
    simp only [Call.clashes, Bool.and_eq_true, decide_eq_true_eq]
    cases d.buffer <;> simp
  simp [sharedWith, hb, key]

/-- An operation that uses no buffer shares none. -/
theorem sharedWith_of_none (c : Call) (others : List Call) (h : c.buffer = none) :
    sharedWith c others = none := by
  simp [sharedWith, h]

/-- Alone in flight, an operation shares no buffer. -/
@[simp] theorem sharedWith_nil (c : Call) : sharedWith c [] = none := by
  unfold sharedWith
  cases c.buffer <;> rfl

/-- Two operations of different callers use one buffer (70_reset_and_hazards.md R195). -/
def Call.shares (c d : Call) : Prop :=
  c.caller ≠ d.caller ∧ ∃ b e, c.buffer = some b ∧ d.buffer = some e ∧ b.overlaps e = true

/-- No two operations of different callers use one buffer exactly when no shared buffer is found. -/
theorem sharedBuffer_eq_none_iff (calls : List Call) :
    sharedBuffer calls = none ↔ calls.Pairwise (fun c d => ¬ c.shares d) := by
  induction calls with
  | nil => simp [sharedBuffer]
  | cons c others ih =>
    rw [List.pairwise_cons, ← ih, sharedBuffer]
    cases hs : sharedWith c others with
    | some b =>
      refine ⟨fun h => by simp at h, fun h => ?_⟩
      cases hb : c.buffer with
      | none => simp [sharedWith, hb] at hs
      | some b' =>
        have : b' = b := by
          simp only [sharedWith, hb] at hs
          split at hs <;> simp_all
        obtain ⟨d, hd, hne, e, he, ho⟩ := (sharedWith_eq_some_iff c others b (this ▸ hb)).1 hs
        exact absurd ⟨hne, b, e, this ▸ hb, he, ho⟩ (h.1 d hd)
    | none =>
      refine ⟨fun h => ⟨fun d hd hc => ?_, h⟩, fun h => h.2⟩
      obtain ⟨hne, b, e, hb, he, ho⟩ := hc
      rw [(sharedWith_eq_some_iff c others b hb).2 ⟨d, hd, hne, e, he, ho⟩] at hs
      cases hs

/-- Alone in flight, an operation shares no buffer. -/
@[simp] theorem sharedBuffer_singleton (c : Call) : sharedBuffer [c] = none := by
  simp [sharedBuffer]

/-! ## After the response -/

/-- What the caller does next touches the operations in flight only. -/
theorem State.followUp_eq (s : State) (c : Call) : ∃ calls, s.followUp c = s.fly (s.inFlight ++ calls) := by
  have keep : ∃ calls, s = s.fly (s.inFlight ++ calls) := ⟨[], by simp [State.fly]⟩
  have more : ∀ d : Call, ∃ calls, s.reissue d = s.fly (s.inFlight ++ calls) := fun d => ⟨[d], rfl⟩
  unfold State.followUp
  split
  · exact keep
  · exact keep
  · unfold State.continueSeq
    split
    · exact keep
    · split
      · exact keep
      · exact more _
  · exact keep
  · unfold State.continueRetry
    split
    · exact keep
    · split
      · exact more _
      · exact keep
  · unfold State.continueStream
    split
    · split
      · exact more _
      · exact keep
    · exact keep

/-- Issuing the next group touches the operations only. -/
theorem State.issueNext_eq (s : State) :
    ∃ g rest, s.issueNext = { s with inFlight := g, upcoming := rest } := by
  unfold State.issueNext
  split
  · exact ⟨s.inFlight, s.upcoming, rfl⟩
  · exact ⟨_, _, rfl⟩

/-- A next state goes on; nothing else does. -/
@[simp] theorem onNext_next (s : State) (f : State → State) : onNext (.next s) f = .next (f s) := rfl

/-! ## A step -/

/-- Everything a step whose turn has come can do. -/
theorem stepCall_cases (c : Call) (s : State) :
    (∃ i t u, s.issue c = .run i t ∧ exec i t = .next u ∧ stepCall c s = .next (u.followUp c)) ∨
    (∃ e t, s.issue c = .malformed e t ∧ stepCall c s = .next t.markRefused) ∨
    (∃ t, s.issue c = .finished t ∧ stepCall c s = .next t) := by
  unfold stepCall
  cases h : s.issue c with
  | run i t =>
    obtain ⟨u, hu⟩ := exec_total i t
    exact .inl ⟨i, t, u, rfl, hu, by simp [hu]⟩
  | malformed e t => exact .inr (.inl ⟨e, t, rfl, rfl⟩)
  | finished t => exact .inr (.inr ⟨t, rfl, rfl⟩)

/-- Everything a step can do. -/
theorem step_cases (s : State) :
    (s.inFlight = [] ∧ step s = .next s.issueNext) ∨
    (∃ b, s.inFlight ≠ [] ∧ sharedBuffer s.inFlight = some b ∧
      step s = .fault (.sharedBuffer b)) ∨
    (∃ c others, s.inFlight = c :: others ∧ sharedBuffer s.inFlight = none ∧
      step s = stepCall c (s.fly others)) := by
  unfold step
  cases h : s.inFlight with
  | nil => exact .inl ⟨rfl, rfl⟩
  | cons c others =>
    cases hs : sharedBuffer (c :: others) with
    | none => exact .inr (.inr ⟨c, others, rfl, rfl, by simp [hs]⟩)
    | some b => exact .inr (.inl ⟨b, by simp, rfl, by simp [hs]⟩)

end Sys2Proof.Machine
end

