-- ==== Sys2Proof/Laws/Words.lean ====
section
/-! SUPPORT. The bits of a bus and of a request word, so that no proof unfolds a concatenation. -/

namespace Sys2Proof

/-- Bit i of the flattened bus is bit `i mod 8` of lane `i div 8` (20_memory.md R42). -/
theorem getLsbD_busOfLanes (w : Lanes) (i : Nat) (h : i < 72) :
    (busOfLanes w).getLsbD i = (w[i / 8]).getLsbD (i % 8) := by
  unfold busOfLanes
  change @BitVec.getLsbD (8 + 8 + 8 + 8 + 8 + 8 + 8 + 8 + 8) (w[8] ++ w[7] ++ w[6] ++ w[5] ++ w[4] ++ w[3] ++
    w[2] ++ w[1] ++ w[0]) i = _
  simp only [BitVec.getLsbD_append]
  interval_cases i <;> rfl

/-- The bits of an `ENC` word: the value at [71:8], all others 0 (30_encoding.md R68). -/
theorem getLsbD_encRequest (v : Value) (i : Nat) :
    (encRequest v).getLsbD i = (decide (8 ≤ i) && v.getLsbD (i - 8)) := by
  unfold encRequest
  change @BitVec.getLsbD (8 + 64 + 8) (0#8 ++ v ++ 0#8) i = _
  simp only [BitVec.getLsbD_append]
  rcases Nat.lt_or_ge i 8 with h | h
  · have h' : ¬ (8 ≤ i) := by omega
    simp [h, h']
  · by_cases h2 : i - 8 < 64
    · simp [h, h2]
    · have : v.getLsbD (i - 8) = false := BitVec.getLsbD_of_ge v _ (by omega)
      simp [h, h2, this]

/-- The bits of a `DEC` word: `op` at [0], `avail` at [4:1], the bus at [79:8], the reserved bits 0 (R68). -/
theorem getLsbD_decRequest (a : Count) (w : Lanes) (i : Nat) :
    (decRequest a w).getLsbD i =
      if i = 0 then true
      else if i < 5 then a.getLsbD (i - 1)
      else decide (8 ≤ i) && (busOfLanes w).getLsbD (i - 8) := by
  unfold decRequest
  change @BitVec.getLsbD (72 + 3 + 4 + 1) (busOfLanes w ++ 0#3 ++ a ++ 1#1) i = _
  simp only [BitVec.getLsbD_append]
  by_cases h0 : i = 0
  · subst h0; simp
  · by_cases h5 : i < 5
    · have h1 : ¬ i < 1 := by omega
      have h4 : i - 1 < 4 := by omega
      simp [h0, h5, h4]
    · have h1 : ¬ i < 1 := by omega
      have h4 : ¬ i - 1 < 4 := by omega
      by_cases h8 : 8 ≤ i
      · have h3 : ¬ i - 1 - 4 < 3 := by omega
        have e : i - 1 - 4 - 3 = i - 8 := by omega
        rw [if_neg h1, if_neg h4, if_neg h3, e]
        simp [h0, h5, h8]
      · have h3 : i - 1 - 4 < 3 := by omega
        rw [if_neg h1, if_neg h4, if_pos h3]
        simp [h0, h5, h8]

/-- Flattening a port and reading its lanes back gives the port. -/
theorem lanesOfBus_busOfLanes (w : Lanes) : lanesOfBus (busOfLanes w) = w := by
  have lane : ∀ (k j : Nat), k < 9 → j < 8 →
      ((busOfLanes w).extractLsb' (8 * k) 8).getLsbD j = (w[(8 * k + j) / 8]?.getD 0#8).getLsbD ((8 * k + j) % 8) := by
    intro k j hk hj
    have h72 : 8 * k + j < 72 := by omega
    have h9 : (8 * k + j) / 8 < 9 := by omega
    simp [hj, getLsbD_busOfLanes w _ h72, h9]
  apply Vector.ext
  intro k hk
  apply BitVec.eq_of_getLsbD_eq
  intro j hj
  have h := lane k j hk hj
  have e1 : (8 * k + j) / 8 = k := by omega
  have e2 : (8 * k + j) % 8 = j := by omega
  rw [e1, e2] at h
  simp only [hk, Vector.getElem?_eq_getElem, Option.getD_some] at h
  rw [← h]
  interval_cases k <;> rfl

end Sys2Proof
end

