-- ==== Sys2Proof/Laws/PerInstr.lean ====
section
/-! SUPPORT. A law of the syntax, one lemma per constructor: the encoding of a well-formed instruction has
the width of its row of spec/opcode_table.json and meets the row's mask and match. -/

namespace Sys2Proof.Laws

/-- The "width", "mask" and "match" of a row of spec/opcode_table.json. -/
structure TableRow where
  width : Nat
  mask : Nat
  pattern : Nat
  deriving DecidableEq, Repr

/-- The row of each instruction. -/
def tableRow : Instr → TableRow
  | .enc _ => ⟨80, 0xFF0000000000000000FF, 0x00000000000000000000⟩
  | .dec _ _ => ⟨80, 0x000000000000000000E1, 0x00000000000000000001⟩
  | .pfxC1A _ => ⟨8, 0x80, 0x00⟩
  | .pfxC1B _ => ⟨8, 0xC0, 0x80⟩
  | .pfxC1C _ => ⟨8, 0xE0, 0xC0⟩
  | .pfxC1D _ => ⟨8, 0xF0, 0xE0⟩
  | .pfxC1E => ⟨8, 0xFF, 0xF0⟩
  | .pfxC2A => ⟨8, 0xFF, 0xF1⟩
  | .pfxC2B _ => ⟨8, 0xFE, 0xF2⟩
  | .pfxC2C _ => ⟨8, 0xFC, 0xF4⟩
  | .pfxC2D => ⟨8, 0xFF, 0xF8⟩
  | .pfxC3 => ⟨8, 0xFF, 0xF9⟩
  | .pfxC4 => ⟨8, 0xFF, 0xFA⟩
  | .pfxC5 => ⟨8, 0xFF, 0xFB⟩
  | .pfxC6 => ⟨8, 0xFF, 0xFC⟩
  | .pfxC7 => ⟨8, 0xFF, 0xFD⟩
  | .pfxC8 => ⟨8, 0xFF, 0xFE⟩
  | .pfxC9 => ⟨8, 0xFF, 0xFF⟩

/-- The bits have the row's width and meet its mask and match. -/
def TableRow.accepts (r : TableRow) : Fetched → Prop
  | .request w => r.width = 80 ∧ w &&& BitVec.ofNat 80 r.mask = BitVec.ofNat 80 r.pattern
  | .firstByte p => r.width = 8 ∧ p &&& BitVec.ofNat 8 r.mask = BitVec.ofNat 8 r.pattern

/-- The encoding of a well-formed instruction meets its row. -/
def RowPattern.Statement (i : Instr) : Prop := i.wf = true → (tableRow i).accepts (encode i)

theorem RowPattern.enc (value : Value) : RowPattern.Statement (.enc value) := by
  refine fun _ => ⟨rfl, ?_⟩
  apply BitVec.eq_of_getLsbD_eq
  intro j hj
  rw [BitVec.getLsbD_and, getLsbD_encRequest]
  interval_cases j <;> simp [tableRow]

theorem RowPattern.dec (avail : Count) (bytes : Lanes) : RowPattern.Statement (.dec avail bytes) := by
  refine fun _ => ⟨rfl, ?_⟩
  apply BitVec.eq_of_getLsbD_eq
  intro j hj
  rw [BitVec.getLsbD_and, getLsbD_decRequest]
  interval_cases j <;> simp [tableRow]

theorem RowPattern.pfxC1A (p : Byte) : RowPattern.Statement (.pfxC1A p) := by
  refine fun h => ⟨rfl, ?_⟩
  revert p
  decide

theorem RowPattern.pfxC1B (p : Byte) : RowPattern.Statement (.pfxC1B p) := by
  refine fun h => ⟨rfl, ?_⟩
  revert p
  decide

theorem RowPattern.pfxC1C (p : Byte) : RowPattern.Statement (.pfxC1C p) := by
  refine fun h => ⟨rfl, ?_⟩
  revert p
  decide

theorem RowPattern.pfxC1D (p : Byte) : RowPattern.Statement (.pfxC1D p) := by
  refine fun h => ⟨rfl, ?_⟩
  revert p
  decide

theorem RowPattern.pfxC1E : RowPattern.Statement .pfxC1E := fun _ => ⟨rfl, rfl⟩

theorem RowPattern.pfxC2A : RowPattern.Statement .pfxC2A := fun _ => ⟨rfl, rfl⟩

theorem RowPattern.pfxC2B (p : Byte) : RowPattern.Statement (.pfxC2B p) := by
  refine fun h => ⟨rfl, ?_⟩
  revert p
  decide

theorem RowPattern.pfxC2C (p : Byte) : RowPattern.Statement (.pfxC2C p) := by
  refine fun h => ⟨rfl, ?_⟩
  revert p
  decide

theorem RowPattern.pfxC2D : RowPattern.Statement .pfxC2D := fun _ => ⟨rfl, rfl⟩

theorem RowPattern.pfxC3 : RowPattern.Statement .pfxC3 := fun _ => ⟨rfl, rfl⟩

theorem RowPattern.pfxC4 : RowPattern.Statement .pfxC4 := fun _ => ⟨rfl, rfl⟩

theorem RowPattern.pfxC5 : RowPattern.Statement .pfxC5 := fun _ => ⟨rfl, rfl⟩

theorem RowPattern.pfxC6 : RowPattern.Statement .pfxC6 := fun _ => ⟨rfl, rfl⟩

theorem RowPattern.pfxC7 : RowPattern.Statement .pfxC7 := fun _ => ⟨rfl, rfl⟩

theorem RowPattern.pfxC8 : RowPattern.Statement .pfxC8 := fun _ => ⟨rfl, rfl⟩

theorem RowPattern.pfxC9 : RowPattern.Statement .pfxC9 := fun _ => ⟨rfl, rfl⟩

end Sys2Proof.Laws
end

