-- ==== Sys2Proof/Laws/Run.lean ====
section
/-! SUPPORT. Runs of the machine, one step at a time. -/

namespace Sys2Proof.Machine

/-- A run of a machine goes on from the state its first step reaches. -/
theorem run_succ_of_next (M : Host.Core) (n : Nat) (s t : M.State) (h : M.step s = .next t) :
    M.run (n + 1) s = M.run n t := by
  simp [Host.Core.run, h]

/-- No step. -/
@[simp] theorem core_run_zero (s : State) : core.run 0 s = .next s := rfl

/-- A run goes on from the state its first step reaches. -/
theorem core_run_succ (n : Nat) (s t : State) (h : step s = .next t) :
    core.run (n + 1) s = core.run n t :=
  run_succ_of_next core n s t h

end Sys2Proof.Machine
end

