-- ==== Sys2Proof/Machine/Assembler.lean ====
section
/-! DEFINITION. The textual syntax of requests (30_encoding.md R72): `enc <value>` and
`dec <avail>, [<b0> <b1> ... ]`. R72 leaves spaces and the case of hexadecimal digits open (log 18). -/

namespace Sys2Proof.Machine

/-- A decimal digit. -/
def decimalDigit (c : Char) : Option Nat :=
  if 48 ≤ c.toNat ∧ c.toNat ≤ 57 then some (c.toNat - 48) else none

/-- A hexadecimal digit. -/
def hexDigit (c : Char) : Option Nat :=
  if 48 ≤ c.toNat ∧ c.toNat ≤ 57 then some (c.toNat - 48)
  else if 65 ≤ c.toNat ∧ c.toNat ≤ 70 then some (c.toNat - 55)
  else if 97 ≤ c.toNat ∧ c.toNat ≤ 102 then some (c.toNat - 87)
  else none

/-- Leaves leading spaces out. -/
def dropSpaces : List Char → List Char
  | ' ' :: cs => dropSpaces cs
  | cs => cs

/-- The number at the front in a base: how many digits, its value, the rest. -/
def digits (digit : Char → Option Nat) (radix count acc : Nat) : List Char → Nat × Nat × List Char
  | [] => (count, acc, [])
  | c :: cs =>
    match digit c with
    | some d => digits digit radix (count + 1) (acc * radix + d) cs
    | none => (count, acc, c :: cs)

/-- A number with at least one digit. -/
def number (digit : Char → Option Nat) (radix : Nat) (cs : List Char) : Option (Nat × List Char) :=
  match digits digit radix 0 0 cs with
  | (0, _, _) => none
  | (_ + 1, n, rest) => some (n, rest)

/-- A value in decimal, or in hexadecimal after `0x`. -/
def numeral : List Char → Option (Nat × List Char)
  | '0' :: 'x' :: cs => number hexDigit 16 cs
  | cs => number decimalDigit 10 cs

/-- Hexadecimal bytes, two digits each, up to the closing bracket. -/
def hexBytes : List Char → Option (List Byte × List Char)
  | [] => none
  | ' ' :: cs => hexBytes cs
  | ']' :: cs => some ([], cs)
  | [_] => none
  | c :: d :: cs =>
    match hexDigit c, hexDigit d, hexBytes cs with
    | some h, some l, some (bs, rest) => some (BitVec.ofNat 8 (16 * h + l) :: bs, rest)
    | _, _, _ => none

/-- The window of the listed bytes: bytes not listed are 0x00. -/
def lanesOfList (bs : List Byte) : Lanes :=
  #v[bs.getD 0 0#8, bs.getD 1 0#8, bs.getD 2 0#8, bs.getD 3 0#8, bs.getD 4 0#8, bs.getD 5 0#8,
    bs.getD 6 0#8, bs.getD 7 0#8, bs.getD 8 0#8]

/-- The operand of `enc`. -/
def assembleEnc (cs : List Char) : Option Instr :=
  match numeral (dropSpaces cs) with
  | some (n, rest) => if n < 2 ^ 64 ∧ dropSpaces rest = [] then some (.enc (BitVec.ofNat 64 n)) else none
  | none => none

/-- The bracketed bytes of `dec`. -/
def assembleWindow (a : Nat) : List Char → Option Instr
  | '[' :: cs =>
    match hexBytes cs with
    | some (bs, rest) =>
      if a ≤ 15 ∧ bs.length ≤ 9 ∧ dropSpaces rest = [] then
        some (.dec (BitVec.ofNat 4 a) (lanesOfList bs))
      else none
    | none => none
  | _ => none

/-- The operands of `dec`. -/
def assembleDec (cs : List Char) : Option Instr :=
  match number decimalDigit 10 (dropSpaces cs) with
  | some (a, rest) =>
    match dropSpaces rest with
    | ',' :: cs' => assembleWindow a (dropSpaces cs')
    | _ => none
  | none => none

/-- The operation a line of text names. -/
def parseLine (cs : List Char) : Option Instr :=
  match dropSpaces cs with
  | 'e' :: 'n' :: 'c' :: ' ' :: rest => assembleEnc rest
  | 'd' :: 'e' :: 'c' :: ' ' :: rest => assembleDec rest
  | _ => none

/-- A textual request assembles to the `REQ` word of R68. -/
def assembleLine (cs : List Char) : Option ReqWord :=
  match parseLine cs with
  | some i =>
    match encode i with
    | .request w => some w
    | .firstByte _ => none
  | none => none

end Sys2Proof.Machine
end

