-- ==== Sys2Proof/Tests/Slice0.lean ====
section
/-! SUPPORT. Tests. Expected results come from spec/95_test_vectors.md (the TE, TD, S and Q rows) or from the
examples and corner cases of the rule named; none is the model's own answer. The witness theorems show, for
each obligation with hypotheses, a state and operands that meet them. -/

namespace Sys2Proof.Machine

/-! ## Helpers -/

/-- One operation of caller 0 in flight. -/
def flying (op : Op) : State := State.reset.fly [⟨0, op⟩]

/-- A caller decodes a buffer that holds exactly these bytes. -/
def decoding (bytes : List Byte) : State :=
  (State.reset.storeBytes 0 bytes).fly [⟨0, .decodeFrom ⟨0, bytes.length⟩⟩]

/-- The responses after one step. -/
def responsesAfterStep (s : State) : List Response :=
  match step s with
  | .next t => t.responses
  | .fault _ => []
  | .refused _ => []

/-- A memory read after one step. -/
def byteAfterStep (s : State) (a : Nat) : Byte :=
  match step s with
  | .next t => t.memory.read a
  | .fault _ => 0#8
  | .refused _ => 0#8

/-- The marks after one step. -/
def marksAfterStep (s : State) : Option ModelFault × Bool :=
  match step s with
  | .next t => (t.fault, t.refused)
  | .fault _ => (none, false)
  | .refused _ => (none, false)

/-! ## WellFormed: an ill-formed term for each check -/

theorem test_wf_refuses_pfxC1A : (Instr.pfxC1A 0x80#8).wf = false := by decide
theorem test_wf_refuses_pfxC1B : (Instr.pfxC1B 0xC0#8).wf = false := by decide
theorem test_wf_refuses_pfxC1C : (Instr.pfxC1C 0xE0#8).wf = false := by decide
theorem test_wf_refuses_pfxC1D : (Instr.pfxC1D 0xF0#8).wf = false := by decide
theorem test_wf_refuses_pfxC2B : (Instr.pfxC2B 0xF1#8).wf = false := by decide
theorem test_wf_refuses_pfxC2C : (Instr.pfxC2C 0xF3#8).wf = false := by decide

/-! ## Decoding words written out from R68 and R62 -/

/-- Q7: an `ENC` word with bit 1 set. -/
theorem test_decode_rejects_enc_bit_1 :
    decode (.request 0x00000000000000000002#80) = .error (.reservedBitsSet 0x02#80) := by decide
/-- Q8: an `ENC` word with bit 79 set. -/
theorem test_decode_rejects_enc_bit_79 :
    decode (.request 0x80000000000000000000#80) = .error (.reservedBitsSet 0x80000000000000000000#80) := by
  decide
/-- Q9: a `DEC` word with bit 5 set. -/
theorem test_decode_rejects_dec_bit_5 :
    decode (.request 0x00000000000000000021#80) = .error (.reservedBitsSet 0x21#80) := by decide
/-- Q3. -/
theorem test_decode_enc : decode (.request 0x00000000010000000000#80) = .ok (.enc 4294967296#64) := by decide
/-- P2, step 2. -/
theorem test_decode_dec :
    decode (.request 0xFF0000000001FC3CF113#80) =
      .ok (.dec 9#4 #v[0xF1#8, 0x3C#8, 0xFC#8, 0x01#8, 0#8, 0#8, 0#8, 0#8, 0xFF#8]) := by decide
theorem test_decode_pfxC1A : decode (.firstByte 0b01011010#8) = .ok (.pfxC1A 0b01011010#8) := by decide
theorem test_decode_pfxC1B : decode (.firstByte 0b10100101#8) = .ok (.pfxC1B 0b10100101#8) := by decide
theorem test_decode_pfxC1C : decode (.firstByte 0b11011111#8) = .ok (.pfxC1C 0b11011111#8) := by decide
theorem test_decode_pfxC1D : decode (.firstByte 0b11101111#8) = .ok (.pfxC1D 0b11101111#8) := by decide
theorem test_decode_pfxC1E : decode (.firstByte 0b11110000#8) = .ok .pfxC1E := by decide
theorem test_decode_pfxC2A : decode (.firstByte 0b11110001#8) = .ok .pfxC2A := by decide
theorem test_decode_pfxC2B : decode (.firstByte 0b11110011#8) = .ok (.pfxC2B 0b11110011#8) := by decide
theorem test_decode_pfxC2C : decode (.firstByte 0b11110110#8) = .ok (.pfxC2C 0b11110110#8) := by decide
theorem test_decode_pfxC2D : decode (.firstByte 0b11111000#8) = .ok .pfxC2D := by decide
theorem test_decode_pfxC3 : decode (.firstByte 0b11111001#8) = .ok .pfxC3 := by decide
theorem test_decode_pfxC4 : decode (.firstByte 0b11111010#8) = .ok .pfxC4 := by decide
theorem test_decode_pfxC5 : decode (.firstByte 0b11111011#8) = .ok .pfxC5 := by decide
theorem test_decode_pfxC6 : decode (.firstByte 0b11111100#8) = .ok .pfxC6 := by decide
theorem test_decode_pfxC7 : decode (.firstByte 0b11111101#8) = .ok .pfxC7 := by decide
theorem test_decode_pfxC8 : decode (.firstByte 0b11111110#8) = .ok .pfxC8 := by decide
theorem test_decode_pfxC9 : decode (.firstByte 0b11111111#8) = .ok .pfxC9 := by decide

/-- The host's two questions on one word of each width. -/
theorem test_table_word : decodeTableWord 8 0xFF = some .pfxC9 ∧ decodeTableWord 80 0x12C00 = some (.enc 300#64) := by
  decide
theorem test_fetch_first_byte :
    responsesAfterStep (State.reset.withFetchWord 8 0xF9) = [.dec ⟨true, 2288#64, 3#4, 3#4⟩] := by decide

/-! ## Requests, one step each -/

/-- TE19, S1: the source's literal vector. -/
theorem test_enc_port : responsesAfterStep (flying (.request 0x00000000008000000000#80 none)) =
    [.enc ⟨5#4, #v[0xFB#8, 0x80#8, 0#8, 0#8, 0#8, 0#8, 0#8, 0#8, 0#8]⟩] := by decide

/-- Q11: one byte is written over nine 0xAA, the second stays. -/
theorem test_enc_buffer :
    byteAfterStep ((flying (.request 0x500#80 (some ⟨16, 9⟩))).storeBytes 16 (List.replicate 9 0xAA#8)) 16 = 0x05#8 ∧
    byteAfterStep ((flying (.request 0x500#80 (some ⟨16, 9⟩))).storeBytes 16 (List.replicate 9 0xAA#8)) 17 = 0xAA#8 := by
  decide

/-- Q10: a buffer of capacity 8. -/
theorem test_enc_short_buffer :
    marksAfterStep (flying (.request 0#80 (some ⟨16, 8⟩))) = (some (.outBufferTooSmall 8), false) := by decide

/-- Q7, P5: refused, no response. -/
theorem test_malformed_request : marksAfterStep (flying (.request 0x702#80 none)) = (none, true) ∧
    responsesAfterStep (flying (.request 0x702#80 none)) = [] := by decide

/-- TD6 (Q6): a non-minimal string decodes. -/
theorem test_dec_non_minimal : responsesAfterStep (flying (.request 0xF105#80 none)) =
    [.dec ⟨true, 240#64, 2#4, 2#4⟩] := by decide

/-- TD23: `avail` 15 behaves as 9. -/
theorem test_dec_avail_15 : responsesAfterStep (flying (.request 0x0807060504030201FF1F#80 none)) =
    [.dec ⟨true, 0x0102030405060708#64, 9#4, 9#4⟩] := by decide

/-! ## Prefix rows, one step each -/

/-- TD24, shortened: trailing bytes are ignored. -/
theorem test_pfxC1A : responsesAfterStep (decoding [0x05#8, 0xAA#8, 0xBB#8]) = [.dec ⟨true, 5#64, 1#4, 1#4⟩] := by decide
/-- R135: class 1, the value itself. -/
theorem test_pfxC1B : responsesAfterStep (decoding [0x80#8]) = [.dec ⟨true, 128#64, 1#4, 1#4⟩] := by decide
/-- R135. -/
theorem test_pfxC1C : responsesAfterStep (decoding [0xDF#8]) = [.dec ⟨true, 223#64, 1#4, 1#4⟩] := by decide
/-- R135. -/
theorem test_pfxC1D : responsesAfterStep (decoding [0xEF#8]) = [.dec ⟨true, 239#64, 1#4, 1#4⟩] := by decide
/-- TD4. -/
theorem test_pfxC1E : responsesAfterStep (decoding [0xF0#8]) = [.dec ⟨true, 240#64, 1#4, 1#4⟩] := by decide
/-- TD25. -/
theorem test_pfxC2A : responsesAfterStep (decoding [0xF1#8, 0x3C#8, 0x99#8]) = [.dec ⟨true, 300#64, 2#4, 2#4⟩] := by decide
/-- TD5. -/
theorem test_pfxC2A_short : responsesAfterStep (decoding [0xF1#8]) = [.dec ⟨false, 0#64, 0#4, 2#4⟩] := by decide
/-- TE6, decoded. -/
theorem test_pfxC2B : responsesAfterStep (decoding [0xF2#8, 0x00#8]) = [.dec ⟨true, 496#64, 2#4, 2#4⟩] := by decide
/-- R136 by hand: 3*256 + 1 + 240. -/
theorem test_pfxC2C : responsesAfterStep (decoding [0xF4#8, 0x01#8]) = [.dec ⟨true, 1009#64, 2#4, 2#4⟩] := by decide
/-- TD8. -/
theorem test_pfxC2D : responsesAfterStep (decoding [0xF8#8, 0xFF#8]) = [.dec ⟨true, 2287#64, 2#4, 2#4⟩] := by decide
/-- TE10, decoded. -/
theorem test_pfxC3 : responsesAfterStep (decoding [0xF9#8, 0x0A#8, 0x98#8]) = [.dec ⟨true, 5000#64, 3#4, 3#4⟩] := by decide
/-- TD9. -/
theorem test_pfxC3_short : responsesAfterStep (decoding [0xF9#8, 0x00#8]) = [.dec ⟨false, 0#64, 0#4, 3#4⟩] := by decide
/-- TE13, decoded. -/
theorem test_pfxC4 : responsesAfterStep (decoding [0xFA#8, 0x01#8, 0x86#8, 0xA0#8]) = [.dec ⟨true, 100000#64, 4#4, 4#4⟩] := by decide
/-- TE17, decoded. -/
theorem test_pfxC5 : responsesAfterStep (decoding [0xFB#8, 0x07#8, 0x5B#8, 0xCD#8, 0x15#8]) = [.dec ⟨true, 123456789#64, 5#4, 5#4⟩] := by decide
/-- TE22, decoded. -/
theorem test_pfxC6 : responsesAfterStep (decoding [0xFC#8, 0x12#8, 0x34#8, 0x56#8, 0x78#8, 0x9A#8]) = [.dec ⟨true, 0x123456789A#64, 6#4, 6#4⟩] := by decide
/-- TD16, S5. -/
theorem test_pfxC6_short : responsesAfterStep (decoding [0xFC#8, 0x01#8, 0#8, 0#8, 0#8]) = [.dec ⟨false, 0#64, 0#4, 6#4⟩] := by decide
/-- TE24, decoded. -/
theorem test_pfxC7 : responsesAfterStep (decoding [0xFD#8, 0x01#8, 0#8, 0#8, 0#8, 0#8, 0#8]) = [.dec ⟨true, 1099511627776#64, 7#4, 7#4⟩] := by decide
/-- TD19. -/
theorem test_pfxC8 : responsesAfterStep (decoding [0xFE#8, 0x01#8, 0#8, 0#8, 0#8, 0#8, 0#8, 0#8]) = [.dec ⟨true, 281474976710656#64, 8#4, 8#4⟩] := by decide
/-- TE29, decoded. -/
theorem test_pfxC9 : responsesAfterStep (decoding [0xFF#8, 1#8, 2#8, 3#8, 4#8, 5#8, 6#8, 7#8, 8#8]) = [.dec ⟨true, 72623859790382856#64, 9#4, 9#4⟩] := by decide
/-- TD20, S8. -/
theorem test_pfxC9_short : responsesAfterStep (decoding [0xFF#8]) = [.dec ⟨false, 0#64, 0#4, 9#4⟩] := by decide

/-! ## The textual syntax (R72), against the request words of P1 and P2 -/

theorem test_assemble_enc : assembleLine "enc 2147483648".toList = some 0x00000000008000000000#80 := by decide
theorem test_assemble_dec :
    assembleLine "dec 5, [FB 80 00 00 00]".toList = some 0x0000000000000080FB0B#80 := by decide

/-! ## Witnesses: each obligation's hypotheses can be met -/

theorem witness_DecodeOfEncodeIsInstr : (Instr.pfxC1A 0x7F#8).wf = true ∧ (Instr.pfxC1D 0xEF#8).wf = true ∧
    (Instr.pfxC2C 0xF4#8).wf = true ∧ (Instr.enc 300#64).wf = true := by decide

theorem witness_EncodeOfDecodeIsWord : decode (.request 0x12C00#80) = .ok (.enc 300#64) ∧
    decode (.firstByte 0xF2#8) = .ok (.pfxC2B 0xF2#8) := by decide

theorem witness_ClassTablePartitions : (67824 : Nat) < 2 ^ 64 ∧ (248 : Nat) < 256 ∧
    LengthClass.c5.len = LengthClass.c4.len + 1 := by decide

theorem witness_StepRunsRequest :
    (flying (.request 0x12C00#80 (some ⟨16, 9⟩))).inFlight = ⟨0, .request 0x12C00#80 (some ⟨16, 9⟩)⟩ :: [] ∧
    sharedBuffer [⟨0, .request 0x12C00#80 (some ⟨16, 9⟩)⟩] = none ∧
    decode (.request 0x12C00#80) = .ok (.enc 300#64) := by decide

theorem witness_StepRunsFirstByte :
    (decoding [0xF1#8, 0x3C#8]).inFlight = ⟨0, .decodeFrom ⟨0, 2⟩⟩ :: [] ∧
    sharedBuffer [⟨0, .decodeFrom ⟨0, 2⟩⟩] = none ∧ 0 < (⟨0, 2⟩ : Buffer).len ∧
    decode (.firstByte ((decoding [0xF1#8, 0x3C#8]).memory.read 0)) = .ok .pfxC2A := by decide

theorem witness_PresentedWindow : (8 : Fin 9).val < min (⟨0, 9⟩ : Buffer).len 9 := by decide

theorem witness_EmptyBufferNeedsOne :
    (decoding []).inFlight = ⟨0, .decodeFrom ⟨0, 0⟩⟩ :: [] ∧ sharedBuffer (decoding []).inFlight = none ∧ (⟨0, 0⟩ : Buffer).len = 0 := by decide

theorem witness_ReservedBitMarksRefused_set :
    (flying (.request 0x702#80 none)).inFlight = ⟨0, .request 0x702#80 none⟩ :: [] ∧
    sharedBuffer [⟨0, .request 0x702#80 none⟩] = none ∧ hasReservedBitSet 0x702#80 ∧
    hasReservedBitSet 0x80000000000000000000#80 ∧ hasReservedBitSet 0x81#80 :=
  ⟨rfl, rfl, ⟨1, by decide⟩, ⟨79, by decide⟩, ⟨7, by decide⟩⟩

theorem witness_ReservedBitMarksRefused_clear :
    (flying (.request 0xFF1F#80 none)).inFlight = ⟨0, .request 0xFF1F#80 none⟩ :: [] ∧
    sharedBuffer [⟨0, .request 0xFF1F#80 none⟩] = none ∧ ¬ hasReservedBitSet 0xFF1F#80 := by
  refine ⟨rfl, rfl, ?_⟩
  rintro ⟨n, hn, ⟨h1, h2⟩ | ⟨h0, _⟩⟩
  · interval_cases n <;> revert hn <;> decide
  · revert h0; decide

/-- Two callers whose buffers have one byte in common, behind an operation of a third. -/
theorem witness_OnlySharedBuffersAreStuck_shared :
    shareBuffer [⟨2, .decodeFrom ⟨20, 4⟩⟩, ⟨0, .decodeFrom ⟨0, 9⟩⟩, ⟨1, .decodeFrom ⟨8, 4⟩⟩] :=
  ⟨⟨0, .decodeFrom ⟨0, 9⟩⟩, ⟨1, .decodeFrom ⟨8, 4⟩⟩, ⟨0, 9⟩, ⟨8, 4⟩, by simp, by decide, rfl, rfl, by decide⟩

/-- Two callers whose buffers touch and share nothing. -/
theorem witness_OnlySharedBuffersAreStuck_apart :
    ¬ shareBuffer [⟨0, .decodeFrom ⟨0, 9⟩⟩, ⟨1, .decodeFrom ⟨9, 4⟩⟩] := by
  rintro ⟨c, d, b, e, hs, -, hb, he, ho⟩
  cases hs with
  | cons _ h => simpa using h.length_le
  | cons_cons _ h =>
    rw [List.singleton_sublist, List.mem_singleton] at h
    subst h
    simp only [Call.buffer, Option.some.injEq] at hb he
    subst hb he
    revert ho
    decide

theorem witness_IdleStepIssuesNextGroup :
    State.reset.inFlight = [] ∧ State.reset.upcoming = [] ∧
    ({ State.reset with upcoming := [[⟨0, .decodeFrom ⟨0, 1⟩⟩]] } : State).upcoming =
      [⟨0, .decodeFrom ⟨0, 1⟩⟩] :: [] := by decide

/-- The bounds of the nine classes, lower and upper (R22). -/
theorem witness_EncClassRules : State.reset.encOut = none ∧
    (240#64).toNat ≤ 240 ∧
    (241 ≤ (241#64).toNat ∧ (2287#64).toNat ≤ 2287) ∧
    (2288 ≤ (2288#64).toNat ∧ (67823#64).toNat ≤ 67823) ∧
    (67824 ≤ (67824#64).toNat ∧ (67824#64).toNat ≤ 2 ^ 24 - 1) ∧
    (2 ^ 24 ≤ (16777216#64).toNat ∧ (16777216#64).toNat ≤ 2 ^ 32 - 1) ∧
    (2 ^ 32 ≤ (4294967296#64).toNat ∧ (4294967296#64).toNat ≤ 2 ^ 40 - 1) ∧
    (2 ^ 40 ≤ (1099511627776#64).toNat ∧ (1099511627776#64).toNat ≤ 2 ^ 48 - 1) ∧
    (2 ^ 48 ≤ (281474976710656#64).toNat ∧ (281474976710656#64).toNat ≤ 2 ^ 56 - 1) ∧
    2 ^ 56 ≤ (72057594037927936#64).toNat := by decide

theorem witness_EncIntoBufferWritesExactly :
    (State.reset.attach (some ⟨16, 9⟩)).encOut = some ⟨16, 9⟩ ∧ 9 ≤ (⟨16, 9⟩ : Buffer).len ∧
    (State.reset.attach (some ⟨16, 9⟩)).memory.wf = true ∧ (0 : Fin 9).val < (encodeValue 5#64).len.toNat ∧
    ¬ (16 ≤ 17 ∧ 17 < 16 + (encodeValue 5#64).len.toNat) := by decide

theorem witness_EncShortBufferFaults :
    (State.reset.attach (some ⟨16, 8⟩)).encOut = some ⟨16, 8⟩ ∧ (⟨16, 8⟩ : Buffer).len < 9 ∧
    (State.reset.attach (some ⟨16, 8⟩)).fault = none := by decide

theorem witness_RecordedFaultStaysAtShortBuffer :
    ((State.reset.attach (some ⟨16, 8⟩)).recordFault (.outBufferTooSmall 3)).encOut = some ⟨16, 8⟩ ∧
    (⟨16, 8⟩ : Buffer).len < 9 ∧
    ((State.reset.attach (some ⟨16, 8⟩)).recordFault (.outBufferTooSmall 3)).fault =
      some (.outBufferTooSmall 3) := by decide

theorem witness_EncLenStepsAtBoundaries :
    (4294967295#64).toNat + 1 < 2 ^ 64 ∧
    ((2 ^ 32 - 1, 5) : Nat × Nat) ∈ [(240, 1), (2287, 2), (67823, 3), (2 ^ 24 - 1, 4), (2 ^ 32 - 1, 5),
      (2 ^ 40 - 1, 6), (2 ^ 48 - 1, 7), (2 ^ 56 - 1, 8)] ∧
    (4294967295#64).toNat = 2 ^ 32 - 1 ∧
    (2147483647#64).toNat ∉ [240, 2287, 67823, 2 ^ 24 - 1, 2 ^ 32 - 1, 2 ^ 40 - 1, 2 ^ 48 - 1, 2 ^ 56 - 1] := by
  decide

theorem witness_EncodingIsMinimal :
    (decodeWindow 2#4 #v[0xF1#8, 0#8, 0#8, 0#8, 0#8, 0#8, 0#8, 0#8, 0#8]).ok = true ∧
    (decodeWindow 2#4 #v[0xF1#8, 0#8, 0#8, 0#8, 0#8, 0#8, 0#8, 0#8, 0#8]).value = 240#64 := by decide

theorem witness_EncLenMonotonic : (2287#64).toNat ≤ (2288#64).toNat := by decide

theorem witness_EncodingPreservesOrder : (67823#64).toNat < (67824#64).toNat := by decide

/-- A window that starts with `p`. -/
def windowFrom (p : Byte) : Lanes := #v[p, 0x01#8, 0x02#8, 0#8, 0#8, 0#8, 0#8, 0#8, 0#8]

/-- The prefixes at the ends of the nine ranges. -/
theorem witness_DecClassRules :
    (windowFrom 0xF0#8)[0].toNat ≤ 240 ∧
    (241 ≤ (windowFrom 0xF1#8)[0].toNat ∧ (windowFrom 0xF8#8)[0].toNat ≤ 248) ∧
    (windowFrom 0xF9#8)[0] = 0xF9#8 ∧ (windowFrom 0xFA#8)[0] = 0xFA#8 ∧ (windowFrom 0xFB#8)[0] = 0xFB#8 ∧
    (windowFrom 0xFC#8)[0] = 0xFC#8 ∧ (windowFrom 0xFD#8)[0] = 0xFD#8 ∧ (windowFrom 0xFE#8)[0] = 0xFE#8 ∧
    (windowFrom 0xFF#8)[0] = 0xFF#8 := by decide

theorem witness_InsufficientBytesIsAResult :
    1 ≤ (1#4).toNat ∧ (1#4).toNat < (prefixClass (windowFrom 0xF1#8)[0]).len ∧
    (8#4).toNat < (prefixClass (windowFrom 0xFF#8)[0]).len := by decide

/-- Two windows that differ past the bytes the decode needs; the second pair differs in every byte but the
first and has too few bytes available. -/
theorem witness_DecInputMasking :
    (∀ i : Fin 9, i.val < min (3#4).toNat (decodeWindow 3#4 (windowFrom 0xF1#8)).need.toNat →
      (windowFrom 0xF1#8)[i] = ((windowFrom 0xF1#8).set 2 0x99#8)[i]) ∧
    (decodeWindow 2#4 (windowFrom 0xF9#8)).ok = false ∧
    (1 ≤ (2#4).toNat → (windowFrom 0xF9#8)[0] = ((windowFrom 0xF9#8).set 1 0x99#8)[0]) := by decide

theorem witness_AvailNineAndMoreAlike : 9 ≤ (9#4).toNat ∧ 9 ≤ (15#4).toNat := by decide

theorem witness_ReferenceReturnRange :
    (decodeWindow 9#4 (windowFrom 0xFF#8)).ok = true ∧ (decodeWindow 8#4 (windowFrom 0xFF#8)).ok = false := by
  decide

theorem witness_PrefixClass1Rows : (0x7F#8).toNat ≤ 127 ∧ (128 ≤ (0x80#8).toNat ∧ (0xBF#8).toNat ≤ 191) ∧
    (192 ≤ (0xC0#8).toNat ∧ (0xDF#8).toNat ≤ 223) ∧ (224 ≤ (0xE0#8).toNat ∧ (0xEF#8).toNat ≤ 239) := by decide

theorem witness_PrefixClass2Rows : (242 ≤ (0xF2#8).toNat ∧ (0xF3#8).toNat ≤ 243) ∧
    (244 ≤ (0xF4#8).toNat ∧ (0xF7#8).toNat ≤ 247) := by decide

theorem witness_RoundTripOfEncoding :
    State.reset.encOut = none ∧ (encodeValue 2147483648#64).len.toNat ≤ (5#4).toNat := by decide

theorem witness_MinimalStringsAreEncodings :
    (prefixClass (windowFrom 0xFB#8)[0]).len ≤ (5#4).toNat ∧
    (classRow (prefixClass (windowFrom 0xFB#8)[0])).lo ≤ (decodeWindow 5#4 (windowFrom 0xFB#8)).value.toNat := by
  decide

theorem witness_TruncatedEncodingReportsNeed :
    (1 ≤ (5#4).toNat ∧ (5#4).toNat < (encodeValue 4294967296#64).len.toNat) ∧ (0#4).toNat = 0 := by decide

theorem witness_SelfDelimitingInABuffer :
    (decoding [0xF1#8, 0x3C#8, 0x99#8]).inFlight = ⟨0, .decodeFrom ⟨0, 3⟩⟩ :: [] ∧
    sharedBuffer [⟨0, .decodeFrom ⟨0, 3⟩⟩] = none ∧ (encodeValue 300#64).written.length ≤ (⟨0, 3⟩ : Buffer).len ∧
    (decoding [0xF1#8, 0x3C#8, 0x99#8]).memory.holds 0 (encodeValue 300#64).written := by
  refine ⟨rfl, rfl, by decide, ?_⟩
  unfold Memory.holds
  decide

/-- A string of each kind that R65 lists, and one it does not. -/
theorem witness_NonMinimalStringsListed :
    (prefixClass (windowFrom 0xF1#8)[0]).len ≤ (2#4).toNat ∧ (prefixClass (windowFrom 0xFA#8)[0]).len ≤ (4#4).toNat ∧
    (prefixClass (windowFrom 0xFB#8)[0]).len ≤ (5#4).toNat ∧
    (decodeWindow 2#4 ((windowFrom 0xF1#8).set 1 0#8)).value.toNat <
      (classRow (prefixClass ((windowFrom 0xF1#8).set 1 0#8)[0])).lo := by decide

/-- Two memories that differ past the two bytes the decode needs. -/
theorem witness_DecodeResponseDependsOnNeededBytesOnly :
    (decoding [0xF1#8, 0x3C#8, 0x99#8]).inFlight = [⟨0, .decodeFrom ⟨0, 3⟩⟩] ∧
    (decoding [0xF1#8, 0x3C#8, 0x77#8]).inFlight = [⟨0, .decodeFrom ⟨0, 3⟩⟩] ∧
    (decoding [0xF1#8, 0x3C#8, 0x99#8]).responses = (decoding [0xF1#8, 0x3C#8, 0x77#8]).responses ∧
    (decoding [0xF1#8, 0x3C#8, 0x99#8]).memory.agreeOn (decoding [0xF1#8, 0x3C#8, 0x77#8]).memory ⟨0, 3⟩
      (min 3 (decodeWindow (availOf 3) ((decoding [0xF1#8, 0x3C#8, 0x99#8]).window ⟨0, 3⟩)).need.toNat) := by
  refine ⟨rfl, rfl, rfl, ?_⟩
  unfold Memory.agreeOn
  decide

/-- Two states that differ in what earlier operations left. -/
theorem witness_ResponsesDependOnInputsOnly :
    State.reset.encOut = State.reset.markRefused.encOut ∧ State.reset.decAvail = State.reset.markRefused.decAvail ∧
    State.reset.decByte = State.reset.markRefused.decByte := by decide

theorem witness_ResponsesCarryThePorts : (Instr.pfxC1B 0x80#8).wf = true ∧ State.reset.encOut = none := by decide

theorem witness_StepKeepsMemoryCanonical :
    (decoding [0xF1#8, 0x3C#8]).memory.wf = true ∧ ∃ t, step (decoding [0xF1#8, 0x3C#8]) = .next t :=
  ⟨by decide, _, rfl⟩

theorem witness_MarksAreNeverCleared :
    ∃ t, step (((decoding [0x05#8]).recordFault (.outBufferTooSmall 8)).markRefused) = .next t ∧
      (((decoding [0x05#8]).recordFault (.outBufferTooSmall 8)).markRefused).fault = some (.outBufferTooSmall 8) ∧
      (((decoding [0x05#8]).recordFault (.outBufferTooSmall 8)).markRefused).refused = true :=
  ⟨_, rfl, rfl, rfl⟩

/-- An encode into a buffer at 16: address 25 lies outside what it may write. -/
theorem witness_StepWritesOnlyTheOutputBuffer :
    (∃ t, step (flying (.request 0x500#80 (some ⟨16, 20⟩))) = .next t) ∧
    ∀ (c : Call) (others : List Call) (b : Buffer),
      (flying (.request 0x500#80 (some ⟨16, 20⟩))).inFlight = c :: others → c.outBuffer = some b →
      ¬ (b.base ≤ 25 ∧ 25 < b.base + min b.len 9) := by
  refine ⟨⟨_, rfl⟩, ?_⟩
  intro c others b h hb
  cases h
  cases hb
  decide

theorem witness_StreamEndsWithinItsLength :
    (flying (.streamFrom ⟨0, 18⟩ 0)).inFlight = [⟨0, .streamFrom ⟨0, 18⟩ 0⟩] ∧
    (flying (.streamFrom ⟨0, 18⟩ 0)).upcoming = [] ∧
    (flying (.streamFrom ⟨0, 0⟩ 0)).inFlight = [⟨0, .streamFrom ⟨0, 0⟩ 0⟩] := by decide

theorem witness_StreamDecodesConcatenation :
    [300#64, 5#64] ≠ [] ∧
    ((flying (.streamFrom ⟨0, 3⟩ 0)).storeBytes 0 [0xF1#8, 0x3C#8, 0x05#8]).inFlight =
      [⟨0, .streamFrom ⟨0, 3⟩ 0⟩] ∧
    ((flying (.streamFrom ⟨0, 3⟩ 0)).storeBytes 0 [0xF1#8, 0x3C#8, 0x05#8]).upcoming = [] ∧
    (⟨0, 3⟩ : Buffer).len = (concatEncodings [300#64, 5#64]).length ∧
    ((flying (.streamFrom ⟨0, 3⟩ 0)).storeBytes 0 [0xF1#8, 0x3C#8, 0x05#8]).memory.holds 0
      (concatEncodings [300#64, 5#64]) := by
  refine ⟨by decide, rfl, rfl, by decide, ?_⟩
  unfold Memory.holds
  decide

theorem witness_SequenceEncodesConcatenation :
    [300#64, 5#64] ≠ [] ∧
    (flying (.encodeSeq [300#64, 5#64] ⟨0, 18⟩)).inFlight = [⟨0, .encodeSeq [300#64, 5#64] ⟨0, 18⟩⟩] ∧
    (flying (.encodeSeq [300#64, 5#64] ⟨0, 18⟩)).upcoming = [] ∧
    9 * [300#64, 5#64].length ≤ (⟨0, 18⟩ : Buffer).len ∧
    (flying (.encodeSeq [300#64, 5#64] ⟨0, 18⟩)).memory.wf = true := by decide

/-- A value of one byte and one of two: both numbers of steps are met. -/
theorem witness_RetryObtainsTheValue :
    (flying (.retryFrom ⟨0, 9⟩ 0)).inFlight = [⟨0, .retryFrom ⟨0, 9⟩ 0⟩] ∧
    (flying (.retryFrom ⟨0, 9⟩ 0)).upcoming = [] ∧
    (encodeValue 0#64).written.length ≤ (⟨0, 9⟩ : Buffer).len ∧ (encodeValue 0#64).len = 1#4 ∧
    (flying (.retryFrom ⟨0, 9⟩ 0)).memory.holds 0 (encodeValue 0#64).written ∧
    ((flying (.retryFrom ⟨0, 9⟩ 0)).storeBytes 0 [0xF1#8, 0x3C#8]).memory.holds 0 (encodeValue 300#64).written := by
  refine ⟨rfl, rfl, by decide, by decide, ?_, ?_⟩ <;> unfold Memory.holds <;> decide

end Sys2Proof.Machine
end

section
/-! The length-class table as a partition (10_state.md R23): the two selectors of the units witness that
every value and every prefix byte has its class, and the successor of a class carries the chaining. -/

namespace Sys2Proof.Machine

/-! ## Every value and every prefix byte has exactly one class -/

/-- The class of a value is the one that `SELECT` gives. -/
theorem existsUnique_valueClass (n : Nat) (h : n < 2 ^ 64) :
    ∃! k : LengthClass, (classRow k).lo ≤ n ∧ n ≤ (classRow k).hi := by
  obtain ⟨v, rfl⟩ : ∃ v : Value, v.toNat = n := ⟨BitVec.ofNatLT n h, BitVec.toNat_ofNatLT n h⟩
  refine ⟨selectClass v, selectClass_range v, ?_⟩
  rintro k ⟨hlo, hhi⟩
  exact (selectClass_eq v k hlo hhi).symm

/-- The class of a prefix byte is the one that the parser gives. -/
theorem existsUnique_prefixClass (n : Nat) (h : n < 256) :
    ∃! k : LengthClass, (classRow k).prefixLo ≤ n ∧ n ≤ (classRow k).prefixHi := by
  obtain ⟨p, rfl⟩ : ∃ p : Byte, p.toNat = n := ⟨BitVec.ofNatLT n h, BitVec.toNat_ofNatLT n h⟩
  refine ⟨prefixClass p, prefixClass_range p, ?_⟩
  rintro k ⟨hlo, hhi⟩
  exact (prefixClass_eq p k hlo hhi).symm

/-! ## Neighbouring classes -/

/-- The class one byte longer; class 9 is the last and stays. -/
def LengthClass.next : LengthClass → LengthClass
  | .c1 => .c2
  | .c2 => .c3
  | .c3 => .c4
  | .c4 => .c5
  | .c5 => .c6
  | .c6 => .c7
  | .c7 => .c8
  | .c8 => .c9
  | .c9 => .c9

theorem LengthClass.len_next (j : LengthClass) (hj : j ≠ .c9) : j.next.len = j.len + 1 := by
  cases j with
  | c9 => exact absurd rfl hj
  | _ => rfl

/-- Classes whose lengths differ by one are neighbours, and the shorter is not the last. -/
theorem LengthClass.eq_next_of_len (j k : LengthClass) (h : k.len = j.len + 1) :
    j ≠ .c9 ∧ k = j.next := by
  have hj : j ≠ .c9 := by
    rintro rfl
    have := k.len_le_nine
    rw [len_c9] at h
    omega
  exact ⟨hj, len_injective k j.next (h.trans (j.len_next hj).symm)⟩

/-- `LO_(k+1) = T_k + 1`. -/
theorem classRow_lo_next (j : LengthClass) (hj : j ≠ .c9) :
    (classRow j.next).lo = (classRow j).hi + 1 := by
  cases j with
  | c9 => exact absurd rfl hj
  | _ => rfl

/-- The prefix ranges chain like the value ranges. -/
theorem classRow_prefixLo_next (j : LengthClass) (hj : j ≠ .c9) :
    (classRow j.next).prefixLo = (classRow j).prefixHi + 1 := by
  cases j with
  | c9 => exact absurd rfl hj
  | _ => rfl

/-- Settles O8: the selectors give existence and uniqueness of the class, and two classes whose lengths
differ by one are neighbours in the table. -/
theorem classTablePartitions : Obligations.ClassTablePartitions := by
  refine ⟨existsUnique_valueClass, existsUnique_prefixClass, rfl, rfl, ?chained,
    LengthClass.len_c1, LengthClass.len_c2, LengthClass.len_c3, LengthClass.len_c4, LengthClass.len_c5,
    LengthClass.len_c6, LengthClass.len_c7, LengthClass.len_c8, LengthClass.len_c9⟩
  case chained =>
    intro j k h
    obtain ⟨hj, rfl⟩ := LengthClass.eq_next_of_len j k h
    exact ⟨classRow_lo_next j hj, (classRow_prefixLo_next j hj).ge⟩

end Sys2Proof.Machine
end

section
/-! The lanes of a flattened port (20_memory.md R42): a slice of the bus at a byte boundary is one lane. -/

namespace Sys2Proof.Machine

/-- Bits [8*i+7 : 8*i] of a flattened port are its lane i: bit j of the slice is bit `8*i+j` of the bus, whose
lane is `(8*i+j)/8 = i` and whose place in the lane is `(8*i+j)%8 = j`. -/
theorem extractLsb'_busOfLanes (w : Lanes) (i : Nat) (hi : i < 9) :
    (busOfLanes w).extractLsb' (8 * i) 8 = w[i] := by
  apply BitVec.eq_of_getLsbD_eq
  intro j hj
  have hlane : (8 * i + j) / 8 = i := by omega
  have hbit : (8 * i + j) % 8 = j := by omega
  calc ((busOfLanes w).extractLsb' (8 * i) 8).getLsbD j
      = (busOfLanes w).getLsbD (8 * i + j) := by simp [hj]
    _ = (w[(8 * i + j) / 8]).getLsbD ((8 * i + j) % 8) := getLsbD_busOfLanes w _ (by omega)
    _ = (w[i]).getLsbD j := by simp only [hlane, hbit]

/-- Settles O7: both buses are flattened ports, so the slice lemma applies to each. -/
theorem busLaneOrder : Obligations.BusLaneOrder := by
  intro s i
  exact ⟨extractLsb'_busOfLanes s.encByte i i.isLt, extractLsb'_busOfLanes s.decByte i i.isLt⟩

end Sys2Proof.Machine
end

section
/-! The first byte of an input (30_encoding.md R62): the row that its mask and match select and the class that
the parser map gives have one length. -/

namespace Sys2Proof.Machine

/-- The parser map in numbers (R62). -/
theorem len_prefixClass (p : Byte) :
    (prefixClass p).len = if p.toNat ≤ 240 then 1 else if p.toNat ≤ 248 then 2 else p.toNat - 246 := by
  have hp := prefixClass_range p
  generalize prefixClass p = k at hp
  cases k <;> simp only [classRow, LengthClass.len] at hp ⊢ <;> split_ifs <;> omega

/-- The row that a first byte selects has that byte in its range: the masks cut 0..255 where the ranges of
spec/opcode_table.json do. -/
theorem wf_decodeFirstByte (p : Byte) : (decodeFirstByte p).wf = true := by
  revert p; decide

/-- A prefix row has the length of the class of each byte in its range. -/
theorem rowLength_of_encode (i : Instr) (p : Byte) (hwf : i.wf = true) (henc : encode i = .firstByte p) :
    rowLength i = (prefixClass p).len := by
  rw [len_prefixClass]
  cases i with
  | enc | dec => cases henc
  | pfxC1A | pfxC1B | pfxC1C | pfxC1D | pfxC2B | pfxC2C =>
    cases henc
    simp only [Instr.wf, decide_eq_true_eq] at hwf
    simp only [rowLength]
    split_ifs <;> omega
  | _ => cases henc; rfl

/-- Settles O6: every first byte selects a row, which is well formed and encodes back to the byte. -/
theorem firstByteSelectsClass : Obligations.FirstByteSelectsClass := by
  intro p
  have hlen : rowLength (decodeFirstByte p) = (prefixClass p).len :=
    rowLength_of_encode _ p (wf_decodeFirstByte p) (encode_decodeFirstByte p)
  exact ⟨decodeFirstByte p, rfl, hlen.trans (len_prefixClass p), hlen.symm⟩

end Sys2Proof.Machine
end

section
/-! Non-minimal strings (30_encoding.md R65). A string of class k is its prefix byte and `k - 1` field bytes; its
value is a base, which the class and the prefix fix, plus the field as a big-endian number. The encoder's
strings have the same two parts, so a decoded value tells which value, if any, was encoded as the string. -/

namespace Sys2Proof.Machine

/-! ## Big-endian numbers (20_memory.md R41) -/

/-- The last byte is the least significant one. -/
theorem bigEndian_concat (bs : List Byte) (b : Byte) :
    bigEndian (bs ++ [b]) = bigEndian bs * 256 + b.toNat := by
  simp [bigEndian]

theorem bigEndian_lt (bs : List Byte) : bigEndian bs < 256 ^ bs.length := by
  induction bs using List.reverseRecOn with
  | nil => decide
  | append_singleton bs b ih =>
    have hb := b.isLt
    rw [bigEndian_concat, List.length_append, List.length_singleton, pow_succ]
    omega

/-- The first byte is the most significant one. -/
theorem bigEndian_cons (b : Byte) (bs : List Byte) :
    bigEndian (b :: bs) = b.toNat * 256 ^ bs.length + bigEndian bs := by
  induction bs using List.reverseRecOn with
  | nil => simp [bigEndian]
  | append_singleton bs c ih =>
    rw [← List.cons_append, bigEndian_concat, bigEndian_concat, ih, List.length_append,
      List.length_singleton, pow_succ]
    ring

/-- A number stays below the weight of its first byte exactly if that byte is 0. -/
theorem bigEndian_cons_lt_iff (b : Byte) (bs : List Byte) :
    bigEndian (b :: bs) < 256 ^ bs.length ↔ b = 0#8 := by
  have hbs := bigEndian_lt bs
  rw [bigEndian_cons]
  constructor
  · intro h
    have hb : b.toNat < 1 := by
      by_contra hb
      have := Nat.le_mul_of_pos_left (256 ^ bs.length) (by omega : 0 < b.toNat)
      omega
    exact BitVec.eq_of_toNat_eq (by simpa using hb)
  · rintro rfl
    simpa using hbs

/-- A byte put behind a word is its last base-256 digit. -/
theorem toNat_append_byte {n : Nat} (x : BitVec n) (y : Byte) : (x ++ y).toNat = x.toNat * 256 + y.toNat := by
  rw [BitVec.toNat_append, ← Nat.shiftLeft_add_eq_or_of_lt y.isLt, Nat.shiftLeft_eq]

/-- Three bytes side by side are their big-endian number. -/
theorem bigEndian_triple (b c d : Byte) : bigEndian [b, c, d] = (b ++ c ++ d).toNat := by
  simp [bigEndian, toNat_append_byte]

/-- The low `n` bytes of a value, the most significant first: a field of `n` bytes (R61). -/
def lowBytes (v : Value) : Nat → List Byte
  | 0 => []
  | n + 1 => valueByte v n :: lowBytes v n

@[simp] theorem length_lowBytes (v : Value) (n : Nat) : (lowBytes v n).length = n := by
  induction n with
  | zero => rfl
  | succ n ih => simp [lowBytes, ih]

theorem bigEndian_lowBytes (v : Value) (n : Nat) : bigEndian (lowBytes v n) = v.toNat % 256 ^ n := by
  induction n with
  | zero => simp [lowBytes, bigEndian, Nat.mod_one]
  | succ n ih =>
    have hbyte : (valueByte v n).toNat = v.toNat / 256 ^ n % 256 := by
      simp [valueByte, BitVec.extractLsb'_toNat, Nat.shiftRight_eq_div_pow, pow_mul]
    rw [lowBytes, bigEndian_cons, length_lowBytes, ih, hbyte, pow_succ, Nat.mod_mul]
    ring

/-! ## A string of class k: prefix byte and field -/

/-- The bytes of a window that follow the prefix byte in a string of class k. -/
def fieldBytes (k : LengthClass) (w : Lanes) : List Byte := (w.toList.take k.len).drop 1

theorem toList_lanes (w : Lanes) : w.toList = [w[0], w[1], w[2], w[3], w[4], w[5], w[6], w[7], w[8]] := by
  apply List.ext_getElem (by simp)
  intro i hi _
  have h9 : i < 9 := by simpa using hi
  interval_cases i <;> simp

theorem take_len_toList (k : LengthClass) (w : Lanes) :
    w.toList.take k.len = w[0] :: fieldBytes k w := by
  rw [fieldBytes, toList_lanes]
  cases k <;> rfl

/-- What the value of a string of class k is without its field (41_decode.md R135 to R143). -/
def fieldBase (k : LengthClass) (p : Byte) : Nat :=
  match k with
  | .c1 => p.toNat
  | .c2 => (p.toNat - 241) * 256 + 240
  | .c3 => 2288
  | _ => 0

/-- The nine unpackers in one: base plus field. -/
theorem toNat_unpack (k : LengthClass) (w : Lanes) :
    (unpack k w).toNat = fieldBase k w[0] + bigEndian (fieldBytes k w) := by
  have hp := w[0].isLt
  have hfield := bigEndian_lt (fieldBytes k w)
  rw [fieldBytes, toList_lanes] at hfield ⊢
  cases k with
  | c1 => simp [unpack, unpackC1, fieldBase, bigEndian]; omega
  | c2 => simp [unpack, unpackC2, fieldBase, bigEndian]; omega
  | c3 => simp [unpack, unpackC3, fieldBase, bigEndian]; omega
  | _ => exact (Nat.mod_eq_of_lt (lt_of_lt_of_le hfield (by simp))).trans (Nat.zero_add _).symm

/-- The encoder's string in the same two parts: the prefix byte and the magnitude field. -/
theorem written_eq (v : Value) :
    (encodeValue v).written = prefixByte (selectClass v) v ::
      lowBytes (magnitude (selectClass v) v) ((selectClass v).len - 1) := by
  rw [EncResult.written, encodeValue]
  generalize selectClass v = k
  cases k <;> rfl

/-- The encoder's base and field add up to the value. -/
theorem fieldBase_add_magnitude (v : Value) :
    fieldBase (selectClass v) (prefixByte (selectClass v) v) +
      (magnitude (selectClass v) v).toNat % 256 ^ ((selectClass v).len - 1) = v.toNat := by
  have hv := selectClass_range v
  generalize selectClass v = k at hv
  cases k <;>
    simp [fieldBase, prefixByte, magnitude, classRow, BitVec.extractLsb'_toNat, BitVec.toNat_sub] at hv ⊢ <;>
    omega

/-- A string that the encoder produces decodes to the value it was produced for. -/
theorem unpack_of_written (v : Value) (k : LengthClass) (w : Lanes)
    (h : (encodeValue v).written = w.toList.take k.len) : selectClass v = k ∧ unpack k w = v := by
  have hk : selectClass v = k := by
    apply LengthClass.len_injective
    have hlen := congrArg List.length h
    have := k.len_le_nine
    simp at hlen
    omega
  subst hk
  rw [written_eq, take_len_toList, List.cons.injEq] at h
  obtain ⟨hprefix, hfield⟩ := h
  refine ⟨rfl, BitVec.eq_of_toNat_eq ?_⟩
  rw [toNat_unpack, ← hprefix, ← hfield, bigEndian_lowBytes, fieldBase_add_magnitude]

/-! ## Values below LO_k -/

/-- The encoding of a value is shorter than class k exactly if the value lies below the range of class k. -/
theorem len_selectClass_lt_iff (v : Value) (k : LengthClass) :
    (selectClass v).len < k.len ↔ v.toNat < (classRow k).lo := by
  have hv := selectClass_range v
  generalize selectClass v = j at hv
  cases j <;> cases k <;> simp [classRow] at hv ⊢ <;> omega

/-- From class 5 on, `LO_k` is the weight of the first field byte. -/
theorem unpack_lt_lo_iff_of_wide (k : LengthClass) (w : Lanes) (hk : 5 ≤ k.len) :
    (unpack k w).toNat < (classRow k).lo ↔ w[1] = 0#8 := by
  have hfield : fieldBytes k w = w[1] :: (fieldBytes k w).drop 1 := by
    rw [fieldBytes, toList_lanes]
    cases k <;> simp at hk ⊢
  have hlo : (classRow k).lo = fieldBase k w[0] + 256 ^ ((fieldBytes k w).drop 1).length := by
    rw [fieldBytes, toList_lanes]
    cases k <;> simp [classRow, fieldBase] at hk ⊢
  calc (unpack k w).toNat < (classRow k).lo
      ↔ bigEndian (fieldBytes k w) < 256 ^ ((fieldBytes k w).drop 1).length := by
        rw [toNat_unpack, hlo, Nat.add_lt_add_iff_left]
    _ ↔ bigEndian (w[1] :: (fieldBytes k w).drop 1) < 256 ^ ((fieldBytes k w).drop 1).length := by
        rw [← hfield]
    _ ↔ w[1] = 0#8 := bigEndian_cons_lt_iff _ _

/-- R65's list, class by class. -/
theorem unpack_lt_lo_iff (w : Lanes) :
    (unpack (prefixClass w[0]) w).toNat < (classRow (prefixClass w[0])).lo ↔
      (w[0] = 0xF1#8 ∧ w[1] = 0#8) ∨
      (w[0] = 0xFA#8 ∧ (w[1] ++ w[2] ++ w[3]).toNat < 67824) ∨
      (251 ≤ w[0].toNat ∧ w[1] = 0#8) := by
  have hp := prefixClass_range w[0]
  generalize prefixClass w[0] = k at hp
  rw [← BitVec.toNat_inj (x := w[0]), ← BitVec.toNat_inj (x := w[0])]
  cases k with
  | c1 | c3 =>
    simp [toNat_unpack, classRow, fieldBase] at hp ⊢
    omega
  | c2 =>
    simp [toNat_unpack, fieldBytes, toList_lanes, classRow, fieldBase, bigEndian,
      ← BitVec.toNat_inj (x := w[1])] at hp ⊢
    omega
  | c4 =>
    simp [toNat_unpack, fieldBytes, toList_lanes, classRow, fieldBase, bigEndian_triple] at hp ⊢
    omega
  | _ =>
    rw [unpack_lt_lo_iff_of_wide _ _ (by simp)]
    simp [classRow, ← BitVec.toNat_inj (x := w[1])] at hp ⊢
    omega

/-- With the bytes of the prefix class available the decoder accepts, with the class's length and value. -/
theorem decodeWindow_of_le (a : Count) (w : Lanes) (h : (prefixClass w[0]).len ≤ a.toNat) :
    decodeWindow a w =
      ⟨true, unpack (prefixClass w[0]) w, (prefixClass w[0]).count, (prefixClass w[0]).count⟩ :=
  classResult_of_le _ _ a h

/-- Settles O38: the decoded value is base plus field, which decides each class; a string that the encoder
produces decodes to a value of the range of its class. -/
theorem nonMinimalStringsListed : Obligations.NonMinimalStringsListed := by
  intro a w ha
  rw [decodeWindow_of_le a w ha]
  refine ⟨rfl, LengthClass.toNat_count _, unpack_lt_lo_iff w, ?shorter, ?notProduced⟩
  case shorter =>
    rw [encodeValue_len, LengthClass.toNat_count]
    exact len_selectClass_lt_iff _ _
  case notProduced =>
    intro hlt v hv
    obtain ⟨hclass, hvalue⟩ := unpack_of_written v _ w hv
    have hrange := selectClass_range v
    rw [hclass, ← hvalue] at hrange
    exact absurd hrange.1 (Nat.not_le.mpr hlt)

end Sys2Proof.Machine
end

section
/-! What decides the encoded length (40_encode.md R117, R118): the class of a value is read off the upper
bounds of the table, a step to the next value leaves a class only at its upper bound, and no string of a class
decodes to a value above that bound. -/

namespace Sys2Proof.Machine

/-! ## No decoded value lies above the bound of its class -/

/-- The encoding of a value is no longer than class k exactly if the value does not exceed `T_k`. -/
theorem len_selectClass_le_iff (v : Value) (k : LengthClass) :
    (selectClass v).len ≤ k.len ↔ v.toNat ≤ (classRow k).hi := by
  have hv := selectClass_range v
  generalize selectClass v = j at hv
  cases j <;> cases k <;> simp [classRow] at hv ⊢ <;> omega

theorem length_fieldBytes (k : LengthClass) (w : Lanes) : (fieldBytes k w).length = k.len - 1 := by
  have := k.len_le_nine
  simp [fieldBytes]
  omega

/-- The base and a field of the class's width stay within `T_k`, whichever prefix of the class is there. -/
theorem fieldBase_add_le_hi (k : LengthClass) (p : Byte) (n : Nat) (hp : p.toNat ≤ (classRow k).prefixHi)
    (hn : n < 256 ^ (k.len - 1)) : fieldBase k p + n ≤ (classRow k).hi := by
  cases k <;> simp [fieldBase, classRow] at hp hn ⊢ <;> omega

theorem unpack_le_hi (w : Lanes) :
    (unpack (prefixClass w[0]) w).toNat ≤ (classRow (prefixClass w[0])).hi := by
  have hfield := bigEndian_lt (fieldBytes (prefixClass w[0]) w)
  rw [length_fieldBytes] at hfield
  rw [toNat_unpack]
  exact fieldBase_add_le_hi _ _ _ (prefixClass_range w[0]).2 hfield

/-- The decoder accepts only with the bytes of the prefix class available. -/
theorem len_le_of_decodeWindow_ok (a : Count) (w : Lanes) (h : (decodeWindow a w).ok = true) :
    (prefixClass w[0]).len ≤ a.toNat := by
  unfold decodeWindow at h
  obtain ⟨hle, -⟩ | ⟨-, -, hr⟩ | ⟨-, hr⟩ :=
    classResult_cases (prefixClass w[0]) (unpack (prefixClass w[0]) w) a
  · exact hle
  · simp [hr] at h
  · simp [hr] at h

/-- Settles O21: the decoded value does not exceed the upper bound of the class that was consumed. -/
theorem encodingIsMinimal : Obligations.EncodingIsMinimal := by
  rintro a w v hok rfl
  rw [decodeWindow_of_le a w (len_le_of_decodeWindow_ok a w hok), encodeValue_len, LengthClass.toNat_count]
  exact (len_selectClass_le_iff _ _).2 (unpack_le_hi w)

/-! ## The next value -/

/-- The classes with a boundary inside the value range. -/
def boundedClasses : List LengthClass := [.c1, .c2, .c3, .c4, .c5, .c6, .c7, .c8]

theorem mem_boundedClasses_iff (k : LengthClass) : k ∈ boundedClasses ↔ k ≠ .c9 := by
  cases k <;> decide

theorem toNat_add_one (v : Value) (h : v.toNat + 1 < 2 ^ 64) : (v + 1#64).toNat = v.toNat + 1 := by
  rw [BitVec.toNat_add, BitVec.toNat_ofNat]
  omega

theorem classRow_lo_le_hi (k : LengthClass) : (classRow k).lo ≤ (classRow k).hi := by
  cases k <;> decide

/-- At `T_k` the next value has the next class. -/
theorem selectClass_add_one_of_eq_hi (v : Value) (k : LengthClass) (hk : k ≠ .c9)
    (h : v.toNat + 1 < 2 ^ 64) (hv : v.toNat = (classRow k).hi) :
    selectClass v = k ∧ selectClass (v + 1#64) = k.next := by
  have hsucc : (v + 1#64).toNat = (classRow k.next).lo := by
    rw [toNat_add_one v h, hv, classRow_lo_next k hk]
  exact ⟨selectClass_eq v k (hv ▸ classRow_lo_le_hi k) hv.le,
    selectClass_eq _ k.next hsucc.ge (hsucc ▸ classRow_lo_le_hi k.next)⟩

/-- Below `T_k` the next value stays in the class. -/
theorem selectClass_add_one_of_ne_hi (v : Value) (h : v.toNat + 1 < 2 ^ 64)
    (hv : v.toNat ≠ (classRow (selectClass v)).hi) : selectClass (v + 1#64) = selectClass v := by
  obtain ⟨hlo, hhi⟩ := selectClass_range v
  apply selectClass_eq <;> rw [toNat_add_one v h] <;> omega

/-- Class 9 ends where the value range does. -/
theorem toNat_ne_hi_c9 (v : Value) (h : v.toNat + 1 < 2 ^ 64) : v.toNat ≠ (classRow .c9).hi := by
  simp only [classRow]
  omega

/-- Settles O20: the eight boundaries are the upper bounds of the classes below class 9; at one of them the
next value has the next class, and anywhere else it stays in its class. -/
theorem encLenStepsAtBoundaries : Obligations.EncLenStepsAtBoundaries := by
  intro v hv
  refine ⟨?atBoundary, ?elsewhere⟩
  case atBoundary =>
    intro t k htk hvt
    change (t, k) ∈ boundedClasses.map (fun j => ((classRow j).hi, j.len)) at htk
    obtain ⟨j, hj, hrow⟩ := List.mem_map.1 htk
    obtain ⟨rfl, rfl⟩ := Prod.mk.inj hrow
    rw [mem_boundedClasses_iff] at hj
    obtain ⟨hclass, hnext⟩ := selectClass_add_one_of_eq_hi v j hj hv hvt
    rw [encodeValue_len, encodeValue_len, hclass, hnext]
    exact ⟨rfl, j.len_next hj⟩
  case elsewhere =>
    intro hnot
    change v.toNat ∉ boundedClasses.map (fun j => (classRow j).hi) at hnot
    have hne : v.toNat ≠ (classRow (selectClass v)).hi := by
      intro heq
      refine hnot (List.mem_map.2 ⟨selectClass v, (mem_boundedClasses_iff _).2 ?_, heq.symm⟩)
      intro h9
      exact toNat_ne_hi_c9 v hv (h9 ▸ heq)
    exact congrArg LengthClass.count (selectClass_add_one_of_ne_hi v hv hne)

end Sys2Proof.Machine
end

section
/-! `ENC` class by class (40_encode.md R104 to R112): the class fixes length and lanes, and a byte of the
magnitude field is a base-256 digit of it. -/

namespace Sys2Proof.Machine

/-- Byte i of a value is its base-256 digit i. -/
theorem valueByte_eq_ofNat (v : Value) (i : Nat) : valueByte v i = BitVec.ofNat 8 (v.toNat / 256 ^ i) := by
  apply BitVec.eq_of_toNat_eq
  simp [valueByte, BitVec.extractLsb'_toNat, Nat.shiftRight_eq_div_pow, pow_mul]

/-- The lowest byte of a value is its remainder by 256. -/
theorem valueByte_zero (v : Value) : valueByte v 0 = BitVec.ofNat 8 (v.toNat % 256) := by
  apply BitVec.eq_of_toNat_eq
  simp [valueByte_eq_ofNat]

/-- `ENC` in the port-level view on a value of class k. -/
theorem exec_enc_of_mem_class (s : State) (v : Value) (k : LengthClass) (hout : s.encOut = none)
    (hlo : (classRow k).lo ≤ v.toNat) (hhi : v.toNat ≤ (classRow k).hi) :
    exec (.enc v) s = .next (s.encoded v k.count (encLanes k v)) := by
  rw [exec_enc_of_none v s hout, encodeValue, selectClass_eq v k hlo hhi]
  rfl

/-- The lanes of class 2 (R105): the field is the low byte of `v - 240`. -/
theorem encLanes_c2 (v : Value) (hv : 240 ≤ v.toNat) :
    encLanes .c2 v = #v[BitVec.ofNat 8 (241 + (v.toNat - 240) / 256),
      BitVec.ofNat 8 ((v.toNat - 240) % 256), 0#8, 0#8, 0#8, 0#8, 0#8, 0#8, 0#8] := by
  have hmag : (v - 240#64).toNat = v.toNat - 240 := BitVec.toNat_sub_of_le hv
  have hfield : packByte .c2 v 1 = BitVec.ofNat 8 ((v.toNat - 240) % 256) := by
    rw [← hmag]
    exact valueByte_zero (v - 240#64)
  rw [← hfield]
  rfl

/-- The lanes of class 3 (R106): the field is the two low bytes of `v - 2288`. -/
theorem encLanes_c3 (v : Value) (hv : 2288 ≤ v.toNat) :
    encLanes .c3 v = #v[0xF9#8, BitVec.ofNat 8 ((v.toNat - 2288) / 256),
      BitVec.ofNat 8 ((v.toNat - 2288) % 256), 0#8, 0#8, 0#8, 0#8, 0#8, 0#8] := by
  have hmag : (v - 2288#64).toNat = v.toNat - 2288 := BitVec.toNat_sub_of_le hv
  have hhigh : packByte .c3 v 1 = BitVec.ofNat 8 ((v.toNat - 2288) / 256) := by
    rw [← hmag]
    exact valueByte_eq_ofNat (v - 2288#64) 1
  have hlow : packByte .c3 v 2 = BitVec.ofNat 8 ((v.toNat - 2288) % 256) := by
    rw [← hmag]
    exact valueByte_zero (v - 2288#64)
  rw [← hhigh, ← hlow]
  rfl

/-- Settles O16: the value range fixes the class; classes 2 and 3 subtract their base first, and in every
other class the lanes are the bytes of the value as they stand. -/
theorem encClassRules : Obligations.EncClassRules := by
  intro s v hout
  refine ⟨fun h => exec_enc_of_mem_class s v .c1 hout (Nat.zero_le _) h, ?class2, ?class3,
    fun ⟨hlo, hhi⟩ => exec_enc_of_mem_class s v .c4 hout hlo hhi,
    fun ⟨hlo, hhi⟩ => exec_enc_of_mem_class s v .c5 hout hlo hhi,
    fun ⟨hlo, hhi⟩ => exec_enc_of_mem_class s v .c6 hout hlo hhi,
    fun ⟨hlo, hhi⟩ => exec_enc_of_mem_class s v .c7 hout hlo hhi,
    fun ⟨hlo, hhi⟩ => exec_enc_of_mem_class s v .c8 hout hlo hhi,
    fun hlo => exec_enc_of_mem_class s v .c9 hout hlo (Nat.le_of_lt_succ v.isLt)⟩
  case class2 =>
    rintro ⟨hlo, hhi⟩
    rw [exec_enc_of_mem_class s v .c2 hout hlo hhi, encLanes_c2 v (by omega)]
    rfl
  case class3 =>
    rintro ⟨hlo, hhi⟩
    rw [exec_enc_of_mem_class s v .c3 hout hlo hhi, encLanes_c3 v hlo]
    rfl

end Sys2Proof.Machine
end

section
/-! The encoder keeps the order of values (41_decode.md R162, R163): a longer class has larger values and
larger prefix bytes, and within a class the prefix byte and then the field bytes are digits of the value, the
most significant first. -/

namespace Sys2Proof.Machine

/-- Settles O22: the class of the larger value bounds the smaller value too. -/
theorem encLenMonotonic : Obligations.EncLenMonotonic := by
  intro v w hvw
  rw [encodeValue_len, encodeValue_len, len_selectClass_le_iff]
  exact hvw.trans (selectClass_range w).2

/-! ## Digits -/

/-- The leading digit decides: a number with a larger leading digit is larger. -/
theorem leadingDigit_le {b c x y W : Nat} (hy : y < W) (h : b * W + x ≤ c * W + y) : b ≤ c := by
  by_contra hcb
  have : (c + 1) * W ≤ b * W := Nat.mul_le_mul_right W (by omega)
  rw [Nat.succ_mul] at this
  omega

/-- Byte strings of one length compare as their big-endian numbers. -/
theorem lex_of_bigEndian_lt (bs cs : List Byte) (hlen : bs.length = cs.length)
    (h : bigEndian bs < bigEndian cs) :
    List.Lex (fun b c : Byte => b.toNat < c.toNat) bs cs := by
  induction bs generalizing cs with
  | nil =>
    obtain rfl := List.length_eq_zero_iff.1 hlen.symm
    exact absurd h (lt_irrefl _)
  | cons b bs ih =>
    cases cs with
    | nil => cases hlen
    | cons c cs =>
      have htail : bs.length = cs.length := Nat.succ.inj hlen
      rw [bigEndian_cons, bigEndian_cons, htail] at h
      rcases (leadingDigit_le (bigEndian_lt cs) h.le).lt_or_eq with hbc | hbc
      · exact .rel hbc
      · obtain rfl : b = c := BitVec.eq_of_toNat_eq hbc
        exact .cons (ih cs htail (Nat.lt_of_add_lt_add_left h))

/-- Byte strings of one length with the same big-endian number are the same. -/
theorem eq_of_bigEndian_eq (bs cs : List Byte) (hlen : bs.length = cs.length)
    (h : bigEndian bs = bigEndian cs) : bs = cs := by
  induction bs generalizing cs with
  | nil => exact (List.length_eq_zero_iff.1 hlen.symm).symm
  | cons b bs ih =>
    cases cs with
    | nil => cases hlen
    | cons c cs =>
      have htail : bs.length = cs.length := Nat.succ.inj hlen
      rw [bigEndian_cons, bigEndian_cons, htail] at h
      have hbc : b.toNat = c.toNat :=
        (leadingDigit_le (bigEndian_lt cs) h.le).antisymm
          (leadingDigit_le (htail ▸ bigEndian_lt bs) h.ge)
      rw [hbc] at h
      rw [BitVec.eq_of_toNat_eq hbc, ih cs htail (Nat.add_left_cancel h)]

/-! ## The prefix byte as the leading digit -/

/-- The prefix byte of an encoding lies in the prefix range of the value's class. -/
theorem prefixByte_range (v : Value) :
    (classRow (selectClass v)).prefixLo ≤ (prefixByte (selectClass v) v).toNat ∧
      (prefixByte (selectClass v) v).toNat ≤ (classRow (selectClass v)).prefixHi := by
  have h := prefixClass_range (prefixByte (selectClass v) v)
  rwa [prefixClass_prefixByte] at h

/-- The prefix ranges rise with the class length. -/
theorem prefixHi_lt_prefixLo (j k : LengthClass) (h : j.len < k.len) :
    (classRow j).prefixHi < (classRow k).prefixLo := by
  revert h
  cases j <;> cases k <;> decide

/-- Two strings of class k: the one with the smaller or equal value has the smaller or equal prefix byte. -/
theorem prefix_le_of_value_le (k : LengthClass) (p q : Byte) (x y : Nat)
    (hp : p.toNat ≤ (classRow k).prefixHi) (hq : (classRow k).prefixLo ≤ q.toNat)
    (hy : y < 256 ^ (k.len - 1)) (h : fieldBase k p + x ≤ fieldBase k q + y) : p.toNat ≤ q.toNat := by
  cases k <;> simp [fieldBase, classRow] at hp hq hy h ⊢ <;> omega

/-- The bytes of an encoding that follow its prefix byte. -/
def encField (v : Value) : List Byte :=
  lowBytes (magnitude (selectClass v) v) ((selectClass v).len - 1)

theorem written_eq_cons_encField (v : Value) :
    (encodeValue v).written = prefixByte (selectClass v) v :: encField v := written_eq v

theorem length_encField (v : Value) : (encField v).length = (selectClass v).len - 1 :=
  length_lowBytes _ _

theorem bigEndian_encField_lt (v : Value) : bigEndian (encField v) < 256 ^ ((selectClass v).len - 1) :=
  length_encField v ▸ bigEndian_lt (encField v)

theorem fieldBase_add_encField (v : Value) :
    fieldBase (selectClass v) (prefixByte (selectClass v) v) + bigEndian (encField v) = v.toNat := by
  rw [encField, bigEndian_lowBytes, fieldBase_add_magnitude]

/-- Values of one class: the prefix bytes decide, and if they are equal the fields do. -/
theorem lex_written_of_same_class (v w : Value) (hvw : v.toNat < w.toNat)
    (hclass : selectClass v = selectClass w) :
    List.Lex (fun b c : Byte => b.toNat < c.toNat) (encodeValue v).written (encodeValue w).written := by
  have hv := fieldBase_add_encField v
  have hw := fieldBase_add_encField w
  have hpv := (prefixByte_range v).2
  have hlen : (encField v).length = (encField w).length := by
    rw [length_encField, length_encField, hclass]
  rw [written_eq_cons_encField, written_eq_cons_encField]
  rw [hclass] at hv hpv ⊢
  have hle := prefix_le_of_value_le _ _ _ _ _ hpv (prefixByte_range w).1 (bigEndian_encField_lt w)
    (by omega : _ + bigEndian (encField v) ≤ _)
  rcases hle.lt_or_eq with hlt | heq
  · exact .rel hlt
  · rw [BitVec.eq_of_toNat_eq heq] at hv ⊢
    exact .cons (lex_of_bigEndian_lt _ _ hlen (by omega))

/-- Values of different classes: the prefix bytes decide. -/
theorem lex_written_of_len_lt (v w : Value) (h : (selectClass v).len < (selectClass w).len) :
    List.Lex (fun b c : Byte => b.toNat < c.toNat) (encodeValue v).written (encodeValue w).written := by
  rw [written_eq_cons_encField, written_eq_cons_encField]
  exact .rel (((prefixByte_range v).2.trans_lt (prefixHi_lt_prefixLo _ _ h)).trans_le
    (prefixByte_range w).1)

/-- Settles O23: the larger value has the longer class, or the same one. -/
theorem encodingPreservesOrder : Obligations.EncodingPreservesOrder := by
  intro v w hvw
  have hlen : (selectClass v).len ≤ (selectClass w).len :=
    (len_selectClass_le_iff v _).2 (hvw.le.trans (selectClass_range w).2)
  rcases hlen.lt_or_eq with hlt | heq
  · exact lex_written_of_len_lt v w hlt
  · exact lex_written_of_same_class v w hvw (LengthClass.len_injective _ _ heq)

end Sys2Proof.Machine
end

section
/-! `DEC` class by class (41_decode.md R130 to R145): what the decoder answers when the input suffices, is too
short or is empty, and which bytes each answer looks at. -/

namespace Sys2Proof.Machine

/-! ## The three answers -/

/-- With some bytes but not those of the prefix class the decoder asks for the class length. -/
theorem decodeWindow_of_lt (a : Count) (w : Lanes) (h : a.toNat < (prefixClass w[0]).len)
    (ha : 1 ≤ a.toNat) : decodeWindow a w = ⟨false, 0#64, 0#4, (prefixClass w[0]).count⟩ :=
  classResult_of_lt _ _ a h ha

/-- With no byte available the decoder asks for one. -/
theorem decodeWindow_of_zero (w : Lanes) : decodeWindow 0#4 w = ⟨false, 0#64, 0#4, 1#4⟩ :=
  classResult_of_zero _ _

/-- Everything the decoder can answer, by the available count. -/
theorem decodeWindow_cases (a : Count) (w : Lanes) :
    ((prefixClass w[0]).len ≤ a.toNat ∧ decodeWindow a w =
      ⟨true, unpack (prefixClass w[0]) w, (prefixClass w[0]).count, (prefixClass w[0]).count⟩) ∨
    (1 ≤ a.toNat ∧ a.toNat < (prefixClass w[0]).len ∧
      decodeWindow a w = ⟨false, 0#64, 0#4, (prefixClass w[0]).count⟩) ∨
    (a = 0#4 ∧ decodeWindow a w = ⟨false, 0#64, 0#4, 1#4⟩) :=
  classResult_cases _ _ a

/-- With some bytes available the required length is that of the prefix class. -/
theorem decodeWindow_of_pos (a : Count) (w : Lanes) (ha : 1 ≤ a.toNat) :
    decodeWindow a w =
      if (prefixClass w[0]).count.toNat ≤ a.toNat then
        ⟨true, unpack (prefixClass w[0]) w, (prefixClass w[0]).count, (prefixClass w[0]).count⟩
      else ⟨false, 0#64, 0#4, (prefixClass w[0]).count⟩ := by
  rw [LengthClass.toNat_count]
  split_ifs with h
  · exact decodeWindow_of_le a w h
  · exact decodeWindow_of_lt a w (Nat.not_le.1 h) ha

/-! ## The class rules -/

/-- The statements' answer of a class is the model's. -/
theorem classAnswer_len (k : LengthClass) (value : Value) (a : Count) :
    classAnswer k.len value a = classResult k value a := by
  have hpos : (0#4).toNat < k.len := k.len_pos
  obtain ⟨hle, hr⟩ | ⟨ha, hlt, hr⟩ | ⟨rfl, hr⟩ := classResult_cases k value a <;> rw [hr, classAnswer]
  · rw [if_pos hle]
    rfl
  · rw [if_neg (Nat.not_le.2 hlt), if_neg (Nat.ne_of_gt ha)]
    rfl
  · rw [if_neg (Nat.not_le.2 hpos)]
    rfl

/-- `DEC` on a window whose prefix byte lies in the range of class k. -/
theorem exec_dec_of_mem_class (s : State) (a : Count) (w : Lanes) (k : LengthClass) (value : Value)
    (hlo : (classRow k).prefixLo ≤ w[0].toNat) (hhi : w[0].toNat ≤ (classRow k).prefixHi)
    (hvalue : unpack k w = value) :
    exec (.dec a w) s = .next (s.decoded a w (classAnswer k.len value a)) := by
  rw [exec_dec, decodeWindow, prefixClass_eq w[0] k hlo hhi, hvalue, classAnswer_len]
  rfl

/-- The same for a class with one prefix byte. -/
theorem exec_dec_of_prefix_eq (s : State) (a : Count) (w : Lanes) (k : LengthClass) (p : Byte) (value : Value)
    (hp : w[0] = p) (hlo : (classRow k).prefixLo = p.toNat) (hhi : (classRow k).prefixHi = p.toNat)
    (hvalue : unpack k w = value) :
    exec (.dec a w) s = .next (s.decoded a w (classAnswer k.len value a)) :=
  exec_dec_of_mem_class s a w k value (by rw [hp, hlo]) (by rw [hp, hhi]) hvalue

/-- Class 1 (R135): the prefix byte, extended. -/
theorem unpackC1_eq (w : Lanes) : unpackC1 w = w[0].setWidth 64 := BitVec.ofNat_toNat 64 w[0]

/-- Class 2 (R136), in 64-bit arithmetic. -/
theorem unpackC2_eq (w : Lanes) (hp : 241 ≤ w[0].toNat) :
    unpackC2 w = (w[0].setWidth 64 - 241#64) * 256#64 + w[1].setWidth 64 + 240#64 := by
  have hw0 := w[0].isLt
  have hw1 := w[1].isLt
  apply BitVec.eq_of_toNat_eq
  simp only [unpackC2, BitVec.toNat_ofNat, BitVec.toNat_add, BitVec.toNat_mul, BitVec.toNat_sub,
    BitVec.toNat_setWidth]
  omega

/-- Class 3 (R137), in 64-bit arithmetic. -/
theorem unpackC3_eq (w : Lanes) :
    unpackC3 w = 2288#64 + 256#64 * w[1].setWidth 64 + w[2].setWidth 64 := by
  simp [unpackC3, BitVec.ofNat_add, BitVec.ofNat_mul]

/-- A word whose number is the big-endian one of some bytes is the value of those bytes (R138 to R143). -/
theorem ofNat_bigEndian {n : Nat} (bs : List Byte) (x : BitVec n) (h : bigEndian bs = x.toNat) :
    BitVec.ofNat 64 (bigEndian bs) = x.setWidth 64 := by
  rw [h, BitVec.ofNat_toNat]

/-- Settles O24: the prefix byte fixes the class, and the class its unpacker; classes 4 to 9 read their bytes
as one big-endian word. -/
theorem decClassRules : Obligations.DecClassRules := by
  intro s a w
  refine ⟨fun h => exec_dec_of_mem_class s a w .c1 _ (Nat.zero_le _) h (unpackC1_eq w),
    fun ⟨hlo, hhi⟩ => exec_dec_of_mem_class s a w .c2 _ hlo hhi (unpackC2_eq w hlo),
    fun h => exec_dec_of_prefix_eq s a w .c3 _ _ h rfl rfl (unpackC3_eq w),
    fun h => exec_dec_of_prefix_eq s a w .c4 _ _ h rfl rfl (ofNat_bigEndian _ _ ?_),
    fun h => exec_dec_of_prefix_eq s a w .c5 _ _ h rfl rfl (ofNat_bigEndian _ _ ?_),
    fun h => exec_dec_of_prefix_eq s a w .c6 _ _ h rfl rfl (ofNat_bigEndian _ _ ?_),
    fun h => exec_dec_of_prefix_eq s a w .c7 _ _ h rfl rfl (ofNat_bigEndian _ _ ?_),
    fun h => exec_dec_of_prefix_eq s a w .c8 _ _ h rfl rfl (ofNat_bigEndian _ _ ?_),
    fun h => exec_dec_of_prefix_eq s a w .c9 _ _ h rfl rfl (ofNat_bigEndian _ _ ?_)⟩ <;>
  simp only [toNat_append_byte, bigEndian, List.foldl_cons, List.foldl_nil, Nat.zero_mul, Nat.zero_add]

/-! ## Required length and reference return -/

/-- Settles O25: with no byte available the required length is 1, otherwise it is the length of the prefix
class. -/
theorem decAvailabilityCheck : Obligations.DecAvailabilityCheck := by
  intro s a w
  rcases Nat.eq_zero_or_pos a.toNat with h0 | hpos
  · obtain rfl : a = 0#4 := BitVec.eq_of_toNat_eq h0
    refine ⟨1#4, 0#64, rfl, by decide, by decide, ?_⟩
    rw [exec_dec, decodeWindow_of_zero]
    rfl
  · have hneed : (prefixClass w[0]).count.toNat = (prefixClass w[0]).len := LengthClass.toNat_count _
    refine ⟨(prefixClass w[0]).count, unpack (prefixClass w[0]) w, ?_,
      hneed ▸ LengthClass.len_pos _, hneed ▸ LengthClass.len_le_nine _, ?_⟩
    · rw [hneed, len_prefixClass, if_neg (Nat.ne_of_gt hpos)]
    · rw [exec_dec, decodeWindow_of_pos a w hpos]
      rfl

/-- Settles O29: each of the three answers carries a length or a payload in 1..9. -/
theorem referenceReturnRange : Obligations.ReferenceReturnRange := by
  intro a w
  have hpos := (prefixClass w[0]).len_pos
  have hnine := (prefixClass w[0]).len_le_nine
  obtain ⟨-, hr⟩ | ⟨-, -, hr⟩ | ⟨-, hr⟩ := decodeWindow_cases a w <;> rw [hr]
  · simp [DecResult.referenceReturn]
    omega
  · simp [DecResult.referenceReturn]
    omega
  · simp [DecResult.referenceReturn]

/-! ## Which bytes are looked at -/

/-- The unpacker of class k looks at the first k bytes only. -/
theorem unpack_congr (k : LengthClass) (w w' : Lanes) (h : w.toList.take k.len = w'.toList.take k.len) :
    unpack k w = unpack k w' := by
  rw [take_len_toList, take_len_toList, List.cons.injEq] at h
  obtain ⟨hprefix, hfield⟩ := h
  apply BitVec.eq_of_toNat_eq
  rw [toNat_unpack, toNat_unpack, hprefix, hfield]

/-- Windows whose first n lanes agree have the same first n bytes. -/
theorem take_toList_congr (w w' : Lanes) (n : Nat) (h : ∀ i : Fin 9, i.val < n → w[i] = w'[i]) :
    w.toList.take n = w'.toList.take n := by
  apply List.ext_getElem (by simp)
  intro i hi _
  have hbound : i < n ∧ i < 9 := by simpa using hi
  simpa using h ⟨i, hbound.2⟩ hbound.1

/-- A failing decode looks at the prefix byte at most, and at none when no byte is available. -/
theorem decodeWindow_congr_of_fails (a : Count) (w w' : Lanes) (hfail : (decodeWindow a w).ok = false)
    (h : 1 ≤ a.toNat → w[0] = w'[0]) : decodeWindow a w = decodeWindow a w' := by
  obtain ⟨-, hr⟩ | ⟨ha, hlt, hr⟩ | ⟨rfl, -⟩ := decodeWindow_cases a w
  · simp [hr] at hfail
  · rw [hr, decodeWindow_of_lt a w' (h ha ▸ hlt) ha, h ha]
  · rw [decodeWindow_of_zero, decodeWindow_of_zero]

/-- A successful decode looks at the bytes of the prefix class. -/
theorem decodeWindow_congr_of_le (a : Count) (w w' : Lanes) (hle : (prefixClass w[0]).len ≤ a.toNat)
    (h : w.toList.take (prefixClass w[0]).len = w'.toList.take (prefixClass w[0]).len) :
    decodeWindow a w = decodeWindow a w' := by
  have hprefix : w[0] = w'[0] := by
    rw [take_len_toList, take_len_toList] at h
    exact (List.cons.inj h).1
  rw [decodeWindow_of_le a w hle, decodeWindow_of_le a w' (hprefix ▸ hle), ← hprefix, unpack_congr _ w w' h]

/-- Settles O27: on success `min(a, need)` is the class length, on failure it is at least 1 as soon as a byte is
available. -/
theorem decInputMasking : Obligations.DecInputMasking := by
  intro a w w'
  refine ⟨?agree, decodeWindow_congr_of_fails a w w'⟩
  case agree =>
    intro h
    have hpos := (prefixClass w[0]).len_pos
    obtain ⟨hle, hr⟩ | ⟨-, hlt, hr⟩ | ⟨ha, hr⟩ := decodeWindow_cases a w <;> rw [hr] at h
    · rw [LengthClass.toNat_count, Nat.min_eq_right hle] at h
      exact decodeWindow_congr_of_le a w w' hle (take_toList_congr w w' _ h)
    · rw [LengthClass.toNat_count, Nat.min_eq_left hlt.le] at h
      exact decodeWindow_congr_of_fails a w w' (by rw [hr]) (h 0)
    · exact decodeWindow_congr_of_fails a w w' (by rw [hr]) (fun h1 => by simp [ha] at h1)

end Sys2Proof.Machine
end

section
/-! Decoding and encoding undo each other (41_decode.md R160, R161, R165): the encoder's bytes decode to their
value, and a string whose value belongs to its class is that value's encoding. -/

namespace Sys2Proof.Machine

/-! ## What the encoder answered, decoded -/

/-- The encoder's first byte tells the class of the value. -/
theorem prefixClass_encodeValue (v : Value) : prefixClass (encodeValue v).bytes[0] = selectClass v := by
  rw [encodeValue_getElem]
  exact prefixClass_prefixByte v

/-- The encoder's bytes, unpacked by the class of the value, give the value. -/
theorem unpack_encodeValue (v : Value) : unpack (selectClass v) (encodeValue v).bytes = v := by
  have hwritten : (encodeValue v).written = (encodeValue v).bytes.toList.take (selectClass v).len := by
    rw [EncResult.written, encodeValue_len]
  exact (unpack_of_written v _ _ hwritten).2

/-- With the bytes of an encoding available the decoder gives the value and the encoding's length. -/
theorem decodeWindow_encodeValue (v : Value) (a : Count) (h : (encodeValue v).len.toNat ≤ a.toNat) :
    decodeWindow a (encodeValue v).bytes = ⟨true, v, (encodeValue v).len, (encodeValue v).len⟩ := by
  rw [encodeValue_len] at h
  rw [decodeWindow_of_le a _ (by rwa [prefixClass_encodeValue]), prefixClass_encodeValue, unpack_encodeValue]
  rfl

/-- Settles O34: `ENC` leaves its bytes on `enc_byte`, which decode to the value. -/
theorem roundTripOfEncoding : Obligations.RoundTripOfEncoding := by
  intro s v a hout ha
  refine ⟨_, _, exec_enc_of_none v s hout, exec_dec _ _ _, ?_⟩
  have henc : ((s.driveEnc v).respond (.enc (encodeValue v))).encByte = (encodeValue v).bytes := rfl
  simp [henc, decodeWindow_encodeValue v a ha]

/-- Settles O36: the prefix byte of an encoding asks for exactly the encoding's length. -/
theorem truncatedEncodingReportsNeed : Obligations.TruncatedEncodingReportsNeed := by
  intro v a
  refine ⟨?truncated, ?empty⟩
  case truncated =>
    rintro ⟨ha, hlt⟩
    rw [encodeValue_len] at hlt
    rw [decodeWindow_of_lt a _ (by rwa [prefixClass_encodeValue]) ha, prefixClass_encodeValue]
    rfl
  case empty =>
    intro ha
    obtain rfl : a = 0#4 := BitVec.eq_of_toNat_eq ha
    exact decodeWindow_of_zero _

/-! ## A minimal string is an encoding -/

/-- The prefix byte and the field of a string of class k are determined by its value. -/
theorem string_eq_of_value_eq (k : LengthClass) (p q : Byte) (bs cs : List Byte)
    (hp : (classRow k).prefixLo ≤ p.toNat ∧ p.toNat ≤ (classRow k).prefixHi)
    (hq : (classRow k).prefixLo ≤ q.toNat ∧ q.toNat ≤ (classRow k).prefixHi)
    (hbs : bs.length = k.len - 1) (hcs : cs.length = k.len - 1)
    (h : fieldBase k p + bigEndian bs = fieldBase k q + bigEndian cs) : p :: bs = q :: cs := by
  obtain ⟨hplo, hphi⟩ := hp
  obtain ⟨hqlo, hqhi⟩ := hq
  have hpq : p = q := BitVec.eq_of_toNat_eq <|
    (prefix_le_of_value_le k p q _ _ hphi hqlo (hcs ▸ bigEndian_lt cs) h.le).antisymm
      (prefix_le_of_value_le k q p _ _ hqhi hplo (hbs ▸ bigEndian_lt bs) h.ge)
  subst hpq
  rw [eq_of_bigEndian_eq bs cs (hbs.trans hcs.symm) (Nat.add_left_cancel h)]

/-- A string whose value belongs to its class is the encoding of that value. -/
theorem written_unpack (k : LengthClass) (w : Lanes) (hk : prefixClass w[0] = k)
    (hclass : selectClass (unpack k w) = k) :
    (encodeValue (unpack k w)).written = w.toList.take k.len := by
  have hprefix := prefixByte_range (unpack k w)
  have hlen := length_encField (unpack k w)
  have hvalue := fieldBase_add_encField (unpack k w)
  rw [written_eq_cons_encField, take_len_toList]
  rw [hclass] at hprefix hlen hvalue ⊢
  exact string_eq_of_value_eq k _ _ _ _ hprefix (hk ▸ prefixClass_range w[0]) hlen (length_fieldBytes k w)
    (hvalue.trans (toNat_unpack k w))

/-- Settles O35: a value of at least `LO_k` that was decoded from class k has class k. -/
theorem minimalStringsAreEncodings : Obligations.MinimalStringsAreEncodings := by
  refine ⟨?decoded, ?encoded⟩
  case decoded =>
    intro a w ha hlo
    rw [decodeWindow_of_le a w ha] at hlo ⊢
    have hclass := selectClass_eq _ _ hlo (unpack_le_hi w)
    refine ⟨congrArg LengthClass.count hclass, ?_⟩
    rw [LengthClass.toNat_count]
    exact written_unpack _ w rfl hclass
  case encoded =>
    intro v
    rw [prefixClass_encodeValue]
    exact (selectClass_range v).1

end Sys2Proof.Machine
end

section
/-! The state after reset (70_reset_and_hazards.md R192): the marks of 10_state.md R29 and the operations in
flight, one lemma per field, so that no proof unfolds `State.reset` for them. -/

namespace Sys2Proof.Machine

@[simp] theorem State.reset_fault : State.reset.fault = none := rfl

@[simp] theorem State.reset_refused : State.reset.refused = false := rfl

@[simp] theorem State.reset_inFlight : State.reset.inFlight = [] := rfl

/-- Settles O1: the three fields that R192 fixes, each read off the reset state. -/
theorem resetHasNoMarksAndNothingInFlight : Obligations.ResetHasNoMarksAndNothingInFlight :=
  ⟨State.reset_fault, State.reset_refused, State.reset_inFlight⟩

end Sys2Proof.Machine
end

section
/-! Instructions and their bits (30_encoding.md R62, R68, R69), both ways. A request word is compared bit by bit,
through the lemmas that say which field bit i of an encoded word belongs to; a first byte is compared with the
mask and match of each row. -/

namespace Sys2Proof.Machine

/-! ## Reserved bits -/

/-- A field of a word is 0 exactly if all its bits are. -/
theorem extractLsb'_eq_zero_iff {n : Nat} (x : BitVec n) (start len : Nat) :
    x.extractLsb' start len = 0#len ↔ ∀ j, start ≤ j → j < start + len → x.getLsbD j = false := by
  constructor
  · intro h j hlo hhi
    have hbit := congrArg (fun y => y.getLsbD (j - start)) h
    simpa [show j - start < len by omega, show start + (j - start) = j by omega] using hbit
  · intro h
    apply BitVec.eq_of_getLsbD_eq
    intro j hj
    simpa [hj] using h (start + j) (by omega) (by omega)

/-- The decoder's test of a `DEC` word. -/
theorem reservedClear_of_dec (w : ReqWord) (hop : w.getLsbD 0 = true) :
    reservedClear w = true ↔ ∀ j, 5 ≤ j → j < 8 → w.getLsbD j = false := by
  rw [reservedClear, if_pos hop, beq_iff_eq, extractLsb'_eq_zero_iff]

/-- The decoder's test of an `ENC` word. -/
theorem reservedClear_of_enc (w : ReqWord) (hop : w.getLsbD 0 = false) :
    reservedClear w = true ↔ (∀ j, 1 ≤ j → j < 8 → w.getLsbD j = false) ∧
      ∀ j, 72 ≤ j → j < 80 → w.getLsbD j = false := by
  simp only [reservedClear, hop, Bool.false_eq_true, if_false, Bool.and_eq_true, beq_iff_eq,
    extractLsb'_eq_zero_iff]

/-- The decoder accepts exactly the words in which no bit that R68 reserves is set. -/
theorem reservedClear_iff (w : ReqWord) : reservedClear w = true ↔ ¬ hasReservedBitSet w := by
  unfold hasReservedBitSet
  cases hop : w.getLsbD 0 with
  | true =>
    rw [reservedClear_of_dec w hop]
    constructor
    · rintro h ⟨n, hn, hrange | hrange⟩
      · exact absurd (h n (by omega) (by omega)) (by simp [hn])
      · exact absurd hrange.1 (by decide)
    · intro h j hlo hhi
      by_contra hj
      exact h ⟨j, by simpa using hj, .inl (by omega)⟩
  | false =>
    rw [reservedClear_of_enc w hop]
    constructor
    · rintro ⟨hlow, hhigh⟩ ⟨n, hn, hrange⟩
      rcases Nat.lt_or_ge n 8 with h8 | h8
      · exact absurd (hlow n (by omega) h8) (by simp [hn])
      · exact absurd (hhigh n (by omega) (by omega)) (by simp [hn])
    · intro h
      refine ⟨fun j hlo hhi => ?_, fun j hlo hhi => ?_⟩ <;> by_contra hj
      · have hrange : (5 ≤ j ∧ j ≤ 7) ∨ (1 ≤ j ∧ j ≤ 4) := by omega
        exact h ⟨j, by simpa using hj, hrange.imp_right fun h14 => ⟨rfl, .inl h14⟩⟩
      · exact h ⟨j, by simpa using hj, .inr ⟨rfl, .inr (by omega)⟩⟩

/-- A word that decodes has its reserved bits clear, and the instruction is the one its fields give. -/
theorem decodeRequest_eq_ok_iff (w : ReqWord) (i : Instr) :
    decode (.request w) = .ok i ↔ reservedClear w = true ∧ requestInstr w = i := by
  simp only [decode, decodeRequest]
  split_ifs with h <;> simp [h]

/-! ## Request words: encode, then decode -/

theorem getLsbD_zero_encRequest (v : Value) : (encRequest v).getLsbD 0 = false :=
  getLsbD_encRequest v 0

theorem requestInstr_encRequest (v : Value) : requestInstr (encRequest v) = .enc v := by
  have hvalue : (encRequest v).extractLsb' 8 64 = v := by
    apply BitVec.eq_of_getLsbD_eq
    intro j hj
    simp [getLsbD_encRequest, hj]
  rw [requestInstr, getLsbD_zero_encRequest, if_neg Bool.false_ne_true, hvalue]

theorem reservedClear_encRequest (v : Value) : reservedClear (encRequest v) = true := by
  rw [reservedClear_of_enc _ (getLsbD_zero_encRequest v)]
  refine ⟨fun j hlo hhi => ?low, fun j hlo hhi => ?high⟩ <;> rw [getLsbD_encRequest]
  case low => simp [Nat.not_le.2 hhi]
  case high => rw [BitVec.getLsbD_of_ge v _ (by omega), Bool.and_false]

theorem getLsbD_zero_decRequest (a : Count) (w : Lanes) : (decRequest a w).getLsbD 0 = true := by
  simp [getLsbD_decRequest]

theorem requestInstr_decRequest (a : Count) (w : Lanes) : requestInstr (decRequest a w) = .dec a w := by
  have havail : (decRequest a w).extractLsb' 1 4 = a := by
    apply BitVec.eq_of_getLsbD_eq
    intro j hj
    simp [getLsbD_decRequest, hj, show 1 + j < 5 by omega]
  have hbus : (decRequest a w).extractLsb' 8 72 = busOfLanes w := by
    apply BitVec.eq_of_getLsbD_eq
    intro j hj
    simp [getLsbD_decRequest, hj, show ¬ 8 + j < 5 by omega]
  rw [requestInstr, if_pos (getLsbD_zero_decRequest a w), havail, hbus, lanesOfBus_busOfLanes]

theorem reservedClear_decRequest (a : Count) (w : Lanes) : reservedClear (decRequest a w) = true := by
  rw [reservedClear_of_dec _ (getLsbD_zero_decRequest a w)]
  intro j hlo hhi
  rw [getLsbD_decRequest, if_neg (by omega), if_neg (by omega)]
  simp [Nat.not_le.2 hhi]

/-! ## First bytes: encode, then decode -/

/-- A byte in the range of a prefix row meets the mask and match of that row and of none before it. -/
theorem decodeFirstByte_of_encode (i : Instr) (p : Byte) (hwf : i.wf = true) (henc : encode i = .firstByte p) :
    decodeFirstByte p = i := by
  cases i with
  | enc | dec => cases henc
  | pfxC1A p | pfxC1B p | pfxC1C p | pfxC1D p | pfxC2B p | pfxC2C p =>
    cases henc
    revert p
    decide
  | _ => cases henc; rfl

/-- Settles O4: a request word gives back its fields, and the byte of a prefix row selects that row. -/
theorem decodeOfEncodeIsInstr : Obligations.DecodeOfEncodeIsInstr := by
  intro i hwf
  cases i with
  | enc v => exact (decodeRequest_eq_ok_iff _ _).2 ⟨reservedClear_encRequest v, requestInstr_encRequest v⟩
  | dec a w =>
    exact (decodeRequest_eq_ok_iff _ _).2 ⟨reservedClear_decRequest a w, requestInstr_decRequest a w⟩
  | _ => exact congrArg Except.ok (decodeFirstByte_of_encode _ _ hwf rfl)

/-! ## Request words: decode, then encode -/

/-- Reading the lanes of a bus and flattening them again gives the bus. -/
theorem busOfLanes_lanesOfBus (b : Bus) : busOfLanes (lanesOfBus b) = b := by
  have lane : ∀ k (hk : k < 9), (lanesOfBus b)[k] = b.extractLsb' (8 * k) 8 := by
    intro k hk
    interval_cases k <;> rfl
  apply BitVec.eq_of_getLsbD_eq
  intro j hj
  rw [getLsbD_busOfLanes _ j hj, lane _ (by omega), BitVec.getLsbD_extractLsb', Nat.div_add_mod]
  simp [Nat.mod_lt]

/-- A `DEC` word with clear reserved bits is put together from its two fields. -/
theorem decRequest_of_fields (w : ReqWord) (hop : w.getLsbD 0 = true) (hclear : reservedClear w = true) :
    decRequest (w.extractLsb' 1 4) (lanesOfBus (w.extractLsb' 8 72)) = w := by
  rw [reservedClear_of_dec w hop] at hclear
  apply BitVec.eq_of_getLsbD_eq
  intro j hj
  rw [getLsbD_decRequest, busOfLanes_lanesOfBus]
  rcases Nat.eq_zero_or_pos j with rfl | h0
  · rw [if_pos rfl, hop]
  rw [if_neg h0.ne']
  rcases Nat.lt_or_ge j 5 with h5 | h5
  · simp [h5, show j - 1 < 4 by omega, show 1 + (j - 1) = j by omega]
  rw [if_neg (Nat.not_lt.2 h5)]
  rcases Nat.lt_or_ge j 8 with h8 | h8
  · simp [hclear j h5 h8, Nat.not_le.2 h8]
  · simp [h8, show j - 8 < 72 by omega, show 8 + (j - 8) = j by omega]

/-- An `ENC` word with clear reserved bits is put together from its value. -/
theorem encRequest_of_field (w : ReqWord) (hop : w.getLsbD 0 = false) (hclear : reservedClear w = true) :
    encRequest (w.extractLsb' 8 64) = w := by
  rw [reservedClear_of_enc w hop] at hclear
  obtain ⟨hlow, hhigh⟩ := hclear
  apply BitVec.eq_of_getLsbD_eq
  intro j hj
  rw [getLsbD_encRequest]
  rcases Nat.lt_or_ge j 8 with h8 | h8
  · rcases Nat.eq_zero_or_pos j with rfl | h0
    · exact hop.symm
    · simp [hlow j h0 h8, Nat.not_le.2 h8]
  rcases Nat.lt_or_ge j 72 with h72 | h72
  · simp [h8, show j - 8 < 64 by omega, show 8 + (j - 8) = j by omega]
  · simp [hhigh j h72 hj, show ¬ j - 8 < 64 by omega]

/-- The instruction of a word with clear reserved bits is well formed and has that word. -/
theorem wf_encode_requestInstr (w : ReqWord) (hclear : reservedClear w = true) :
    (requestInstr w).wf = true ∧ encode (requestInstr w) = .request w := by
  cases hop : w.getLsbD 0 with
  | true =>
    rw [requestInstr, if_pos hop]
    exact ⟨rfl, congrArg Fetched.request (decRequest_of_fields w hop hclear)⟩
  | false =>
    rw [requestInstr, hop, if_neg Bool.false_ne_true]
    exact ⟨rfl, congrArg Fetched.request (encRequest_of_field w hop hclear)⟩

/-- Settles O5: a request word is put together from its fields again; every first byte lies in the range of the
row it selects. -/
theorem encodeOfDecodeIsWord : Obligations.EncodeOfDecodeIsWord := by
  intro f i h
  cases f with
  | request w =>
    obtain ⟨hclear, rfl⟩ := (decodeRequest_eq_ok_iff w i).1 h
    exact wf_encode_requestInstr w hclear
  | firstByte p =>
    obtain rfl : decodeFirstByte p = i := Except.ok.inj h
    exact ⟨wf_decodeFirstByte p, encode_decodeFirstByte p⟩

/-- Settles O3: each word and byte, run through the decoder. -/
theorem writtenWordsDecode : Obligations.WrittenWordsDecode := by
  unfold Obligations.WrittenWordsDecode
  decide

end Sys2Proof.Machine
end

section
/-! The prefix rows (30_encoding.md R62, 41_decode.md R135 to R143): a row does what `DEC` does on the window
with the row's prefix byte in front, so that the class rules of `DEC` are the rules of the rows. -/

namespace Sys2Proof.Machine

/-! ## A row is `DEC` on its window -/

/-- The one meaning that all prefix rows share, for a prefix byte of the row's class. -/
theorem decodeClass_presentFirst (s : State) (p : Byte) (k : LengthClass) (hk : prefixClass p = k) :
    Host.Outcome.next ((s.presentFirst p).decodeClass k (unpack k)) =
      exec (.dec s.decAvail (s.decByte.set 0 p)) s := by
  subst hk
  have hfront : (s.decByte.set 0 p)[0] = p := by simp
  rw [exec_dec, decodeWindow, hfront]
  rfl

/-- The same, the class given by its prefix range. -/
theorem decodeClass_of_range (s : State) (p : Byte) (k : LengthClass)
    (h : (classRow k).prefixLo ≤ p.toNat ∧ p.toNat ≤ (classRow k).prefixHi) :
    Host.Outcome.next ((s.presentFirst p).decodeClass k (unpack k)) =
      exec (.dec s.decAvail (s.decByte.set 0 p)) s :=
  decodeClass_presentFirst s p k (prefixClass_eq p k h.1 h.2)

/-- A well-formed prefix row does what `DEC` does on its window. -/
theorem exec_row_eq_exec_dec (i : Instr) (p : Byte) (s : State) (hwf : i.wf = true)
    (henc : encode i = .firstByte p) : exec i s = exec (.dec s.decAvail (s.decByte.set 0 p)) s := by
  cases i with
  | enc | dec => cases henc
  | pfxC1A | pfxC1B | pfxC1C | pfxC1D =>
    cases henc
    simp only [Instr.wf, decide_eq_true_eq] at hwf
    exact decodeClass_of_range s p .c1 ⟨Nat.zero_le _, by simp only [classRow]; omega⟩
  | pfxC2B | pfxC2C =>
    cases henc
    simp only [Instr.wf, decide_eq_true_eq] at hwf
    exact decodeClass_of_range s p .c2 ⟨by simp only [classRow]; omega, by simp only [classRow]; omega⟩
  | _ => cases henc; exact decodeClass_presentFirst s _ _ rfl

/-- Settles O33: the row that a first byte selects is well formed and has that byte. -/
theorem prefixRowsAgreeWithDec : Obligations.PrefixRowsAgreeWithDec := by
  intro s p
  exact exec_row_eq_exec_dec _ p s (wf_decodeFirstByte p) (encode_decodeFirstByte p)

/-! ## The class rules, row by row -/

/-- The row of a prefix byte of class k answers what the class's rule gives. -/
theorem exec_row_of_mem_class (s : State) (p : Byte) (i : Instr) (k : LengthClass) (value : Value)
    (hwf : i.wf = true) (henc : encode i = .firstByte p)
    (hp : (classRow k).prefixLo ≤ p.toNat ∧ p.toNat ≤ (classRow k).prefixHi)
    (hvalue : unpack k (s.decByte.set 0 p) = value) :
    exec i s = .next (s.served p (classAnswer k.len value s.decAvail)) := by
  have hfront : (s.decByte.set 0 p)[0] = p := by simp
  rw [exec_row_eq_exec_dec i p s hwf henc,
    exec_dec_of_mem_class s s.decAvail _ k value (by rw [hfront]; exact hp.1) (by rw [hfront]; exact hp.2)
      hvalue]
  rfl

theorem unpackC1_set (w : Lanes) (p : Byte) : unpack .c1 (w.set 0 p) = p.setWidth 64 :=
  (unpackC1_eq (w.set 0 p)).trans (by simp)

/-- Class 2 behind a given prefix byte. -/
theorem unpackC2_set (w : Lanes) (p : Byte) (hp : 241 ≤ p.toNat) :
    unpack .c2 (w.set 0 p) = (p.setWidth 64 - 241#64) * 256#64 + w[1].setWidth 64 + 240#64 :=
  (unpackC2_eq (w.set 0 p) (by simpa using hp)).trans (by simp)

/-- Class 2 behind a fixed prefix byte: the part that the prefix gives is one number. -/
theorem unpackC2_set_of_base (w : Lanes) (p : Byte) (base : Value) (hp : 241 ≤ p.toNat)
    (hbase : (p.setWidth 64 - 241#64) * 256#64 + 240#64 = base) :
    unpack .c2 (w.set 0 p) = w[1].setWidth 64 + base := by
  rw [unpackC2_set w p hp, ← hbase, BitVec.add_comm (_ * _), BitVec.add_assoc]

/-- Settles O30: class 1 gives the prefix byte. -/
theorem prefixClass1Rows : Obligations.PrefixClass1Rows := by
  intro s p
  have row : ∀ (q : Byte) (i : Instr), i.wf = true → encode i = .firstByte q → q.toNat ≤ 240 →
      exec i s = .next (s.served q (classAnswer 1 (q.setWidth 64) s.decAvail)) :=
    fun q i hwf henc hq => exec_row_of_mem_class s q i .c1 _ hwf henc ⟨Nat.zero_le _, hq⟩ (unpackC1_set _ q)
  exact ⟨fun h => row p _ (decide_eq_true h) rfl (by omega),
    fun h => row p _ (decide_eq_true h) rfl (by omega),
    fun h => row p _ (decide_eq_true h) rfl (by omega),
    fun h => row p _ (decide_eq_true h) rfl (by omega),
    row 0xF0#8 _ rfl rfl (by decide)⟩

/-- Settles O31: class 2 adds the second byte to what the prefix gives. -/
theorem prefixClass2Rows : Obligations.PrefixClass2Rows := by
  intro s p
  have row : ∀ (q : Byte) (i : Instr) (value : Value), i.wf = true → encode i = .firstByte q →
      241 ≤ q.toNat ∧ q.toNat ≤ 248 → unpack .c2 (s.decByte.set 0 q) = value →
      exec i s = .next (s.served q (classAnswer 2 value s.decAvail)) :=
    fun q i value => exec_row_of_mem_class s q i .c2 value
  exact ⟨row 0xF1#8 _ _ rfl rfl (by decide) (unpackC2_set_of_base _ _ _ (by decide) rfl),
    fun h => row p _ _ (decide_eq_true h) rfl (by omega) (unpackC2_set _ p (by omega)),
    fun h => row p _ _ (decide_eq_true h) rfl (by omega) (unpackC2_set _ p (by omega)),
    row 0xF8#8 _ _ rfl rfl (by decide) (unpackC2_set_of_base _ _ _ (by decide) rfl)⟩

/-- Class 3 behind a given prefix byte. -/
theorem unpackC3_set (w : Lanes) (p : Byte) :
    unpack .c3 (w.set 0 p) = 2288#64 + 256#64 * w[1].setWidth 64 + w[2].setWidth 64 :=
  (unpackC3_eq (w.set 0 p)).trans (by simp)

/-- Classes 4 to 9 behind a given prefix byte: the field bytes as one big-endian word. -/
theorem unpack_set_of_wide {n : Nat} (k : LengthClass) (w : Lanes) (p : Byte) (x : BitVec n) (hk : 4 ≤ k.len)
    (hx : bigEndian (fieldBytes k w) = x.toNat) : unpack k (w.set 0 p) = x.setWidth 64 := by
  have hfield : fieldBytes k (w.set 0 p) = fieldBytes k w := by
    rw [fieldBytes, fieldBytes, toList_lanes, toList_lanes]
    cases k <;> simp
  have hbase : fieldBase k (w.set 0 p)[0] = 0 := by
    cases k <;> simp at hk <;> rfl
  have hvalue := toNat_unpack k (w.set 0 p)
  rw [hbase, hfield, hx, Nat.zero_add] at hvalue
  rw [← BitVec.ofNat_toNat, ← hvalue, BitVec.ofNat_toNat, BitVec.setWidth_eq]

/-- Settles O32: each of the seven classes has one prefix byte; class 3 adds its base, and classes 4 to 9 read
their bytes as one big-endian word. -/
theorem prefixClass3To9Rows : Obligations.PrefixClass3To9Rows := by
  intro s
  refine ⟨exec_row_of_mem_class s _ _ .c3 _ rfl rfl (by decide) (unpackC3_set _ _),
    exec_row_of_mem_class s _ _ .c4 _ rfl rfl (by decide) (unpack_set_of_wide .c4 _ _ _ (by decide) ?_),
    exec_row_of_mem_class s _ _ .c5 _ rfl rfl (by decide) (unpack_set_of_wide .c5 _ _ _ (by decide) ?_),
    exec_row_of_mem_class s _ _ .c6 _ rfl rfl (by decide) (unpack_set_of_wide .c6 _ _ _ (by decide) ?_),
    exec_row_of_mem_class s _ _ .c7 _ rfl rfl (by decide) (unpack_set_of_wide .c7 _ _ _ (by decide) ?_),
    exec_row_of_mem_class s _ _ .c8 _ rfl rfl (by decide) (unpack_set_of_wide .c8 _ _ _ (by decide) ?_),
    exec_row_of_mem_class s _ _ .c9 _ rfl rfl (by decide) (unpack_set_of_wide .c9 _ _ _ (by decide) ?_)⟩ <;>
  simp [fieldBytes, toList_lanes, toNat_append_byte, bigEndian]

/-! ## Insufficient input and the available count -/

/-- Settles O26: the decoder's answer on too few bytes. -/
theorem insufficientBytesIsAResult : Obligations.InsufficientBytesIsAResult := by
  intro s a w ha hlt
  refine ⟨⟨false, 0#64, 0#4, (prefixClass w[0]).count⟩, ?_, rfl, rfl, LengthClass.toNat_count _⟩
  rw [exec_dec, decodeWindow_of_lt a w hlt ha]
  rfl

/-- Settles O28: nine bytes suffice for every class. -/
theorem availNineAndMoreAlike : Obligations.AvailNineAndMoreAlike := by
  intro a w ha
  have hnine := (prefixClass w[0]).len_le_nine
  rw [decodeWindow_of_le a w (hnine.trans ha), decodeWindow_of_le 9#4 w hnine]

end Sys2Proof.Machine
end

section
/-! `ENC` into a caller's buffer (20_memory.md R43, 60_exceptions.md R179): what is written, what is left alone,
and the fault of a short buffer. -/

namespace Sys2Proof.Machine

/-- Byte i of the written encoding is lane i of the encoder's output. -/
theorem getD_written (v : Value) (i : Fin 9) (h : i.val < (encodeValue v).len.toNat) :
    (encodeValue v).written.getD i.val 0#8 = (encodeValue v).bytes[i] := by
  rw [EncResult.written_getD v i (by simpa using h)]
  exact (encodeValue_getElem v i i.isLt).symm

/-- Settles O17: the memory after a write of several bytes. -/
theorem encIntoBufferWritesExactly : Obligations.EncIntoBufferWritesExactly := by
  intro s v out hout hlen hwf
  have hwritten : (encodeValue v).written.length = (encodeValue v).len.toNat := by simp
  refine ⟨s.memory.writeBytes out.base (encodeValue v).written, ?next, Memory.wf_writeBytes _ _ _ hwf,
    ?inside, ?outside⟩
  case next =>
    rw [exec_enc_of_some v s out hout, State.encodeInto_of_long s v out hlen]
    rfl
  case inside =>
    intro i hi
    rw [Memory.read_writeBytes_inside _ _ _ _ hwf (by rwa [hwritten]), getD_written v i hi]
  case outside =>
    intro a ha
    exact Memory.read_writeBytes_of_outside _ _ _ _ (by rwa [hwritten])

/-- Settles O18: with no fault recorded the short buffer's is the first. -/
theorem encShortBufferFaults : Obligations.EncShortBufferFaults := by
  intro s v out hout hlen hfault
  rw [exec_enc_of_some v s out hout, State.encodeInto_of_short s v out hlen, State.recordFault, hfault]
  rfl

/-- Settles O19: a recorded fault is kept, which leaves the state as it was. -/
theorem recordedFaultStaysAtShortBuffer : Obligations.RecordedFaultStaysAtShortBuffer := by
  intro s v out f hout hlen hfault
  have hkept : s.fault.or (some (.outBufferTooSmall out.len)) = s.fault := by rw [hfault]; rfl
  rw [exec_enc_of_some v s out hout, State.encodeInto_of_short s v out hlen, State.recordFault, hkept]

end Sys2Proof.Machine
end

section
/-! From an operation in flight to its instruction (20_memory.md R44, 30_encoding.md R67 to R69,
70_reset_and_hazards.md R195): the decode of a buffer answers what the decoder gives for the presented window,
whichever row its first byte selects; a malformed word only sets the mark; only a shared buffer is stuck. -/

namespace Sys2Proof.Machine

/-! ## The turn of an operation -/

/-- With no shared buffer the oldest operation in flight has its turn. -/
theorem step_of_cons (s : State) (c : Call) (others : List Call) (h : s.inFlight = c :: others)
    (hs : sharedBuffer s.inFlight = none) : step s = stepCall c (s.fly others) := by
  rw [h] at hs
  simp only [step, h, hs]

/-- With nothing in flight the callers issue their next group. -/
theorem step_of_nil (s : State) (h : s.inFlight = []) : step s = .next s.issueNext := by
  simp only [step, h]

/-- A request word with clear reserved bits runs its instruction. -/
theorem stepCall_request (s : State) (caller : Nat) (w : ReqWord) (out : Option Buffer)
    (h : reservedClear w = true) :
    stepCall ⟨caller, .request w out⟩ s = exec (requestInstr w) (s.attach out) := by
  obtain ⟨u, hu⟩ := exec_total (requestInstr w) (s.attach out)
  have hissue : s.issue ⟨caller, .request w out⟩ = .run (requestInstr w) (s.attach out) := by
    obtain ⟨-, hi⟩ | ⟨h', -⟩ := s.issueRequest_cases w out
    · exact hi
    · simp [h] at h'
  simp only [stepCall, hissue, hu]
  rfl

/-- A malformed request word sets the mark and nothing else. -/
theorem stepCall_malformed (s : State) (caller : Nat) (w : ReqWord) (out : Option Buffer)
    (h : reservedClear w = false) : stepCall ⟨caller, .request w out⟩ s = .next s.markRefused := by
  have hissue : s.issue ⟨caller, .request w out⟩ = .malformed (.reservedBitsSet w) s := by
    obtain ⟨h', -⟩ | ⟨-, hi⟩ := s.issueRequest_cases w out
    · simp [h] at h'
    · exact hi
  simp only [stepCall, hissue]

/-- Settles O9: a word that decodes has clear reserved bits, and a request has no follow-up. -/
theorem stepRunsRequest : Obligations.StepRunsRequest := by
  intro s caller w out others i hfly hs hi
  obtain ⟨hclear, rfl⟩ := (decodeRequest_eq_ok_iff w i).1 hi
  rw [step_of_cons s _ others hfly hs, stepCall_request _ caller w out hclear]

/-- Settles O13: the decoder's test is R68's list of reserved bits. -/
theorem reservedBitMarksRefused : Obligations.ReservedBitMarksRefused := by
  intro s caller w out others hfly hs
  refine ⟨fun hset => ?_, fun hclear => ?_⟩
  · have hbits : reservedClear w = false := by
      rw [← Bool.not_eq_true, reservedClear_iff]
      exact not_not_intro hset
    rw [step_of_cons s _ others hfly hs, stepCall_malformed _ caller w out hbits]
    rfl
  · exact ⟨_, (decodeRequest_eq_ok_iff w _).2 ⟨(reservedClear_iff w).2 hclear, rfl⟩⟩

/-- Settles O15: with nothing in flight a step is `issueNext`. -/
theorem idleStepIssuesNextGroup : Obligations.IdleStepIssuesNextGroup := by
  intro s hfly
  rw [step_of_nil s hfly]
  refine ⟨fun g rest hup => ?_, fun hup => ?_⟩ <;> simp only [State.issueNext, hup]

/-! ## Stuck schedules -/

/-- The statements' notion of a shared buffer is the one that the model's check decides. -/
theorem shareBuffer_iff (calls : List Call) : shareBuffer calls ↔ sharedBuffer calls ≠ none := by
  rw [ne_eq, sharedBuffer_eq_none_iff, List.pairwise_iff_forall_sublist]
  constructor
  · rintro ⟨c, d, b, e, hsub, hne, hb, he, ho⟩ h
    exact h hsub ⟨hne, b, e, hb, he, ho⟩
  · intro h
    push Not at h
    obtain ⟨c, d, hsub, hne, b, e, hb, he, ho⟩ := h
    exact ⟨c, d, b, e, hsub, hne, hb, he, ho⟩

/-- An operation whose turn has come has a next state. -/
theorem stepCall_total (c : Call) (s : State) : ∃ t, stepCall c s = .next t := by
  obtain ⟨_, _, u, _, _, h⟩ | ⟨_, t, _, h⟩ | ⟨t, _, h⟩ := stepCall_cases c s
  · exact ⟨_, h⟩
  · exact ⟨_, h⟩
  · exact ⟨_, h⟩

/-- Settles O14: a shared buffer is the one thing that keeps a step from a next state. -/
theorem onlySharedBuffersAreStuck : Obligations.OnlySharedBuffersAreStuck := by
  intro s
  rw [shareBuffer_iff]
  obtain ⟨hfly, h⟩ | ⟨b, -, hs, h⟩ | ⟨c, others, -, hs, h⟩ := step_cases s
  · exact ⟨fun hs => absurd (by rw [hfly]; rfl) hs, fun _ => ⟨_, h⟩⟩
  · exact ⟨fun _ => ⟨b, h⟩, fun hs' => absurd (by rw [hs]; exact Option.some_ne_none b) hs'⟩
  · obtain ⟨t, ht⟩ := stepCall_total c (s.fly others)
    exact ⟨fun hs' => absurd hs hs', fun _ => ⟨t, h.trans ht⟩⟩

/-! ## The decode of a buffer -/

/-- What the decoder answers for the window that a caller presents from a buffer. -/
def State.bufferAnswer (s : State) (b : Buffer) : DecResult := decodeWindow (availOf b.len) (s.window b)

/-- The state after the decode of a buffer has been answered. -/
def State.answerDecode (s : State) (b : Buffer) : State := (s.present b).respond (.dec (s.bufferAnswer b))

@[simp] theorem State.answerDecode_memory (s : State) (b : Buffer) : (s.answerDecode b).memory = s.memory := rfl
@[simp] theorem State.answerDecode_responses (s : State) (b : Buffer) :
    (s.answerDecode b).responses = s.responses ++ [.dec (s.bufferAnswer b)] := rfl
@[simp] theorem State.answerDecode_fault (s : State) (b : Buffer) : (s.answerDecode b).fault = s.fault := rfl
@[simp] theorem State.answerDecode_refused (s : State) (b : Buffer) : (s.answerDecode b).refused = s.refused := rfl
@[simp] theorem State.answerDecode_inFlight (s : State) (b : Buffer) :
    (s.answerDecode b).inFlight = s.inFlight := rfl
@[simp] theorem State.answerDecode_upcoming (s : State) (b : Buffer) :
    (s.answerDecode b).upcoming = s.upcoming := rfl
@[simp] theorem State.answerDecode_decOk (s : State) (b : Buffer) :
    (s.answerDecode b).decOk = (s.bufferAnswer b).ok := rfl
@[simp] theorem State.answerDecode_decLen (s : State) (b : Buffer) :
    (s.answerDecode b).decLen = (s.bufferAnswer b).len := rfl
@[simp] theorem State.answerDecode_decNeed (s : State) (b : Buffer) :
    (s.answerDecode b).decNeed = (s.bufferAnswer b).need := rfl

/-- The presented ports give the same as `DEC` on them. -/
theorem exec_dec_present (s : State) (b : Buffer) :
    exec (.dec (availOf b.len) (s.window b)) (s.present b) = .next (s.answerDecode b) := rfl

/-- The first lane of the window of a non-empty buffer holds its first byte. -/
theorem State.window_getElem_zero (s : State) (b : Buffer) (h : b.len ≠ 0) :
    (s.window b)[0] = s.memory.read b.base := by
  rw [s.window_getElem b 0 (by decide), s.windowLane_of_lt b 0 (by omega), Nat.add_zero]

/-- The row that the first byte of a non-empty buffer selects finds that byte in place. -/
theorem exec_row_present (s : State) (b : Buffer) (h : b.len ≠ 0) :
    exec (decodeFirstByte (s.memory.read b.base)) (s.present b) = .next (s.answerDecode b) := by
  have hset : (s.window b).set 0 (s.memory.read b.base) = s.window b := by
    rw [← s.window_getElem_zero b h, Vector.set_getElem_self]
  rw [prefixRowsAgreeWithDec, State.present_decAvail, State.present_decByte, hset, exec_dec_present]

/-- The decode of a buffer becomes an instruction that answers for the presented window. -/
theorem State.issueDecode_runs (s : State) (b : Buffer) :
    ∃ i, s.issueDecode b = .run i (s.present b) ∧ exec i (s.present b) = .next (s.answerDecode b) := by
  obtain ⟨h, hi⟩ | ⟨h, hi⟩ := s.issueDecode_cases b
  · refine ⟨_, hi, ?_⟩
    have havail : availOf b.len = 0#4 := by rw [h]; rfl
    rw [← havail, exec_dec_present]
  · exact ⟨_, hi, exec_row_present s b h⟩

/-- The turn of an operation that decodes the front of a buffer. -/
theorem stepCall_of_issueDecode (c : Call) (s : State) (b : Buffer) (h : s.issue c = s.issueDecode b) :
    stepCall c s = .next ((s.answerDecode b).followUp c) := by
  obtain ⟨i, hi, hexec⟩ := s.issueDecode_runs b
  simp only [stepCall, h, hi, hexec, onNext_next]

/-- The step that decodes a buffer once. -/
theorem step_decodeFrom (s : State) (caller : Nat) (input : Buffer) (others : List Call)
    (h : s.inFlight = ⟨caller, .decodeFrom input⟩ :: others) (hs : sharedBuffer s.inFlight = none) :
    step s = .next ((s.fly others).answerDecode input) := by
  rw [step_of_cons s _ others h hs, stepCall_of_issueDecode _ _ input rfl]
  rfl

/-- Settles O10: the row that the first byte selects answers for the presented window, as the step does. -/
theorem stepRunsFirstByte : Obligations.StepRunsFirstByte := by
  intro s caller input others i hfly hs hlen hi
  obtain rfl : decodeFirstByte (s.memory.read input.base) = i := Except.ok.inj hi
  rw [step_decodeFrom s caller input others hfly hs]
  exact (exec_row_present (s.fly others) input hlen.ne').symm

/-- Settles O11: the lanes below `min(n, 9)` are driven from the buffer. -/
theorem presentedWindow : Obligations.PresentedWindow := by
  intro s input
  refine ⟨toNat_availOf input.len, fun i hi => ?_, rfl⟩
  exact (s.window_getElem input i i.isLt).trans (s.windowLane_of_lt input i hi)

/-- Settles O12: no byte is available, whatever the window holds. -/
theorem emptyBufferNeedsOne : Obligations.EmptyBufferNeedsOne := by
  intro s caller input others hfly hs hlen
  have havail : availOf input.len = 0#4 := by rw [hlen]; rfl
  refine ⟨(s.fly others).window input, ?_⟩
  rw [step_decodeFrom s caller input others hfly hs, State.answerDecode, State.bufferAnswer, State.present, havail,
    decodeWindow_of_zero]
  rfl

/-! ## Which bytes of a buffer decide the answer -/

/-- Two presentations of a buffer whose memories agree on the offsets below `min(n, need)` get one answer. -/
theorem bufferAnswer_congr (s s' : State) (b : Buffer)
    (h : s.memory.agreeOn s'.memory b (min b.len (s.bufferAnswer b).need.toNat)) :
    s.bufferAnswer b = s'.bufferAnswer b := by
  refine (decInputMasking _ _ _).1 fun i hi => ?_
  rw [toNat_availOf] at hi
  have hn : i.val < min b.len 9 := lt_of_lt_of_le hi (Nat.min_le_left _ _)
  have hneed : i.val < min b.len (s.bufferAnswer b).need.toNat := by
    unfold State.bufferAnswer
    omega
  calc (s.window b)[i] = s.memory.read (b.base + i) :=
        (s.window_getElem b i i.isLt).trans (s.windowLane_of_lt b i hn)
    _ = s'.memory.read (b.base + i) := h i hneed
    _ = (s'.window b)[i] := ((s'.window_getElem b i i.isLt).trans (s'.windowLane_of_lt b i hn)).symm

/-- Settles O39: both steps answer for the presented window, and the windows agree where it counts. -/
theorem decodeResponseDependsOnNeededBytesOnly : Obligations.DecodeResponseDependsOnNeededBytesOnly := by
  intro s s' caller input hfly hfly' hresp hagree
  have hanswer : s.bufferAnswer input = s'.bufferAnswer input := bufferAnswer_congr s s' input hagree
  refine ⟨_, _, step_decodeFrom s caller input [] hfly (by rw [hfly, sharedBuffer_singleton]),
    step_decodeFrom s' caller input [] hfly' (by rw [hfly', sharedBuffer_singleton]), ?_, rfl⟩
  calc s.responses ++ [.dec (s.bufferAnswer input)]
      = s'.responses ++ [.dec (s'.bufferAnswer input)] := by rw [hresp, hanswer]

/-- The decoder needs no more than the encoding's bytes, so a buffer that starts with as many of them as it
holds is answered like the encoder's own lanes. -/
theorem bufferAnswer_of_prefix (s : State) (b : Buffer) (v : Value)
    (h : ∀ i, i < min b.len (selectClass v).len →
      s.memory.read (b.base + i) = (encodeValue v).written.getD i 0#8) :
    s.bufferAnswer b = decodeWindow (availOf b.len) (encodeValue v).bytes := by
  refine ((decInputMasking _ _ _).1 fun i hi => ?_).symm
  have hmin : i.val < min b.len (selectClass v).len := by
    have hclass := prefixClass_encodeValue v
    obtain ⟨-, hr⟩ | ⟨-, -, hr⟩ | ⟨ha, -⟩ := decodeWindow_cases (availOf b.len) (encodeValue v).bytes
    · rw [hr, toNat_availOf, LengthClass.toNat_count, hclass] at hi
      omega
    · rw [hr, toNat_availOf, LengthClass.toNat_count, hclass] at hi
      omega
    · simp [ha] at hi
  have hnine := (selectClass v).len_le_nine
  calc (encodeValue v).bytes[i] = (encodeValue v).written.getD i 0#8 :=
        (getD_written v i (by simpa using lt_of_lt_of_le hmin (Nat.min_le_right _ _))).symm
    _ = s.memory.read (b.base + i) := (h i hmin).symm
    _ = (s.window b)[i] :=
        ((s.window_getElem b i i.isLt).trans (s.windowLane_of_lt b i (by omega))).symm

/-- A buffer that starts with an encoding is answered with its value and length. -/
theorem bufferAnswer_of_holds (s : State) (b : Buffer) (v : Value)
    (hlen : (encodeValue v).written.length ≤ b.len) (h : s.memory.holds b.base (encodeValue v).written) :
    s.bufferAnswer b = ⟨true, v, (encodeValue v).len, (encodeValue v).len⟩ := by
  have hnine := (selectClass v).len_le_nine
  rw [EncResult.length_written] at hlen
  rw [bufferAnswer_of_prefix s b v fun i hi => h i (by rw [EncResult.length_written]; omega),
    decodeWindow_encodeValue v _ (by rw [encodeValue_len, toNat_availOf]; omega)]

/-- Settles O37: the bytes behind the encoding take no part in the answer. -/
theorem selfDelimitingInABuffer : Obligations.SelfDelimitingInABuffer := by
  intro s caller input others v hfly hs hlen hholds
  have hanswer : (s.fly others).bufferAnswer input = ⟨true, v, (encodeValue v).len, (encodeValue v).len⟩ :=
    bufferAnswer_of_holds (s.fly others) input v hlen hholds
  refine ⟨availOf input.len, (s.fly others).window input, ?_⟩
  rw [step_decodeFrom s caller input others hfly hs, State.answerDecode, hanswer]
  rfl

end Sys2Proof.Machine
end

section
/-! Independence of the operations (10_state.md R28, 60_exceptions.md R182, 70_reset_and_hazards.md R191): an
answer depends on operands and input ports only, the response carries the output ports, and the two units do not
affect each other. -/

namespace Sys2Proof.Machine

/-! ## What takes part in an answer -/

/-- Two states with the same decoder ports get the same answer from a prefix row, whatever its operand. -/
theorem decodeClass_presentFirst_congr (s s' : State) (p : Byte) (k : LengthClass) (f : Lanes → Value)
    (ha : s.decAvail = s'.decAvail) (hw : s.decByte = s'.decByte) :
    ∃ (t t' : State) (l : List Response),
      (Host.Outcome.next ((s.presentFirst p).decodeClass k f) : Result) = .next t ∧
      (Host.Outcome.next ((s'.presentFirst p).decodeClass k f) : Result) = .next t' ∧
      t.responses = s.responses ++ l ∧ t'.responses = s'.responses ++ l := by
  refine ⟨_, _, [.dec (classResult k (f (s.decByte.set 0 p)) s.decAvail)], rfl, rfl, rfl, ?_⟩
  rw [State.decodeClass_eq, ha, hw]

/-- Two states with the same attached buffer get the same answer from `ENC`: none if that buffer is short. -/
theorem exec_enc_congr (s s' : State) (v : Value) (hout : s.encOut = s'.encOut) :
    ∃ (t t' : State) (l : List Response), exec (.enc v) s = .next t ∧ exec (.enc v) s' = .next t' ∧
      t.responses = s.responses ++ l ∧ t'.responses = s'.responses ++ l := by
  cases h : s'.encOut with
  | none => exact ⟨_, _, _, exec_enc_of_none v s (hout.trans h), exec_enc_of_none v s' h, rfl, rfl⟩
  | some out =>
    refine ⟨_, _, if out.len < 9 then [] else [.wrote (encodeValue v).len],
      exec_enc_of_some v s out (hout.trans h), exec_enc_of_some v s' out h, ?_⟩
    rcases Nat.lt_or_ge out.len 9 with hlen | hlen
    · simp [State.encodeInto_of_short _ v out hlen, hlen]
    · simp [State.encodeInto_of_long _ v out hlen, hlen]

/-- Settles O40: `ENC` looks at the attached buffer, `DEC` at its operands, a prefix row at the window. -/
theorem responsesDependOnInputsOnly : Obligations.ResponsesDependOnInputsOnly := by
  intro i s s' hout ha hw
  cases i with
  | enc v => exact exec_enc_congr s s' v hout
  | dec a w => exact ⟨_, _, [.dec (decodeWindow a w)], rfl, rfl, rfl, rfl⟩
  | _ => exact decodeClass_presentFirst_congr s s' _ _ _ ha hw

/-! ## The response carries the ports -/

/-- A well-formed prefix row answers what the decoder's output ports carry then. -/
theorem exec_row_response (i : Instr) (p : Byte) (s : State) (hwf : i.wf = true)
    (henc : encode i = .firstByte p) :
    ∃ t, exec i s = .next t ∧ t.responses = s.responses ++ [.dec t.decOutputs] :=
  ⟨_, exec_row_eq_exec_dec i p s hwf henc, rfl⟩

/-- Settles O41: each operation drives the ports that its response carries. -/
theorem responsesCarryThePorts : Obligations.ResponsesCarryThePorts := by
  intro i s hwf hout
  cases i with
  | enc v => exact ⟨_, exec_enc_of_none v s hout, rfl⟩
  | dec a w => exact ⟨_, exec_dec a w s, rfl⟩
  | _ => exact exec_row_response _ _ s hwf rfl

/-! ## The two units side by side -/

/-- Two responses that arrive one after the other, in either order. -/
theorem perm_append_two (l : List Response) (x y : Response) : (l ++ [x] ++ [y]).Perm (l ++ [y] ++ [x]) := by
  rw [List.append_assoc, List.append_assoc]
  exact (List.Perm.swap y x []).append_left l

/-- Settles O42: the two operations touch no common field but the responses, and an encode into a short buffer
has none. -/
theorem encAndDecCommute : Obligations.EncAndDecCommute := by
  intro s v a w
  cases hout : s.encOut with
  | none =>
    exact ⟨_, _, _, _, exec_enc_of_none v s hout, rfl, rfl, exec_enc_of_none v _ hout, rfl,
      perm_append_two _ _ _, rfl, rfl⟩
  | some out =>
    refine ⟨_, _, _, _, exec_enc_of_some v s out hout, rfl, rfl, exec_enc_of_some v _ out hout, ?_⟩
    rcases Nat.lt_or_ge out.len 9 with hlen | hlen
    · rw [State.encodeInto_of_short _ v out hlen, State.encodeInto_of_short _ v out hlen]
      exact ⟨rfl, .refl _, rfl, rfl⟩
    · rw [State.encodeInto_of_long _ v out hlen, State.encodeInto_of_long _ v out hlen]
      exact ⟨rfl, perm_append_two _ _ _, rfl, rfl⟩

end Sys2Proof.Machine
end

section
/-! What every step keeps (10_state.md R29, 20_memory.md R43 to R46). A step leaves the callers' bytes, the marks
and the responses in one of four ways; each invariant is read off them. -/

namespace Sys2Proof.Machine

/-- The part of the state that outlives an operation: the callers' bytes, the marks and the responses. -/
structure Ledger where
  memory : Memory
  fault : Option ModelFault
  refused : Bool
  responses : List Response

def State.ledger (s : State) : Ledger := ⟨s.memory, s.fault, s.refused, s.responses⟩

theorem State.ledger_followUp (s : State) (c : Call) : (s.followUp c).ledger = s.ledger := by
  obtain ⟨calls, h⟩ := s.followUp_eq c
  rw [h]
  rfl

theorem State.ledger_issueNext (s : State) : s.issueNext.ledger = s.ledger := by
  obtain ⟨g, rest, h⟩ := s.issueNext_eq
  rw [h]
  rfl

/-- What an encode leaves depends on what was there before, and on nothing else of the state. -/
theorem State.ledger_encodeInto_congr (s s' : State) (v : Value) (out : Buffer) (h : s.ledger = s'.ledger) :
    (s.encodeInto v out).ledger = (s'.encodeInto v out).ledger := by
  obtain ⟨hmemory, hfault, hrefused, hresponses⟩ := Ledger.mk.inj h
  rcases Nat.lt_or_ge out.len 9 with hlen | hlen
  · simp [State.encodeInto_of_short _ v out hlen, State.ledger, hmemory, hfault, hrefused, hresponses]
  · simp [State.encodeInto_of_long _ v out hlen, State.ledger, hmemory, hfault, hrefused, hresponses]

/-! ## The four ways -/

/-- A step has left the ledger as it was, or with the refused mark, one more response, or an encode into the
given buffer. -/
def leavesLedger (out : Option Buffer) (s t : State) : Prop :=
  t.ledger = s.ledger ∨ t.ledger = s.markRefused.ledger ∨ (∃ r, t.ledger = (s.respond r).ledger) ∨
    ∃ b v, out = some b ∧ t.ledger = (s.encodeInto v b).ledger

theorem leavesLedger_request (s t : State) (caller : Nat) (w : ReqWord) (out : Option Buffer)
    (h : stepCall ⟨caller, .request w out⟩ s = .next t) :
    leavesLedger (Call.outBuffer ⟨caller, .request w out⟩) s t := by
  cases hclear : reservedClear w with
  | false =>
    rw [stepCall_malformed s caller w out hclear] at h
    cases h
    exact .inr (.inl rfl)
  | true =>
    rw [stepCall_request s caller w out hclear, requestInstr] at h
    split at h
    · cases h
      exact .inr (.inr (.inl ⟨_, rfl⟩))
    · rename_i hop
      cases out with
      | none => cases h; exact .inr (.inr (.inl ⟨_, rfl⟩))
      | some b =>
        rw [exec_enc_of_some _ _ b rfl] at h
        cases h
        exact .inr (.inr (.inr ⟨b, _, if_neg hop, State.ledger_encodeInto_congr _ s _ b rfl⟩))

/-- The turn of a sequence encodes its first value. -/
theorem stepCall_encodeSeq (s : State) (caller : Nat) (v : Value) (rest : List Value) (out : Buffer) :
    stepCall ⟨caller, .encodeSeq (v :: rest) out⟩ s =
      .next (((s.attach (some out)).encodeInto v out).followUp ⟨caller, .encodeSeq (v :: rest) out⟩) := rfl

theorem leavesLedger_decode (c : Call) (s t : State) (b : Buffer) (out : Option Buffer)
    (hc : s.issue c = s.issueDecode b) (h : stepCall c s = .next t) : leavesLedger out s t := by
  rw [stepCall_of_issueDecode c s b hc] at h
  cases h
  exact .inr (.inr (.inl ⟨.dec (s.bufferAnswer b), State.ledger_followUp _ _⟩))

/-- A stream that is not at its end decodes what is left. -/
theorem State.issue_streamFrom_of_lt (s : State) (caller : Nat) (input : Buffer) (off : Nat)
    (h : off < input.len) : s.issue ⟨caller, .streamFrom input off⟩ = s.issueDecode (input.drop off) :=
  if_pos h

/-- The turn of a stream at its end changes nothing. -/
theorem stepCall_streamFrom_of_le (s : State) (caller : Nat) (input : Buffer) (off : Nat)
    (h : input.len ≤ off) : stepCall ⟨caller, .streamFrom input off⟩ s = .next s := by
  have hissue : s.issue ⟨caller, .streamFrom input off⟩ = .finished s := if_neg (Nat.not_lt.2 h)
  simp only [stepCall, hissue]

/-- The turn of an operation leaves the ledger in one of the four ways. -/
theorem leavesLedger_stepCall (c : Call) (s t : State) (h : stepCall c s = .next t) :
    leavesLedger c.outBuffer s t := by
  obtain ⟨caller, op⟩ := c
  cases op with
  | request w out => exact leavesLedger_request s t caller w out h
  | encodeSeq vs out =>
    cases vs with
    | nil => cases h; exact .inl rfl
    | cons v rest =>
      rw [stepCall_encodeSeq] at h
      cases h
      exact .inr (.inr (.inr ⟨out, v, rfl,
        (State.ledger_followUp _ _).trans (State.ledger_encodeInto_congr _ s v out rfl)⟩))
  | decodeFrom input => exact leavesLedger_decode _ s t input _ rfl h
  | retryFrom input arrived => exact leavesLedger_decode _ s t (input.take arrived) _ rfl h
  | streamFrom input off =>
    rcases Nat.lt_or_ge off input.len with hoff | hoff
    · exact leavesLedger_decode _ s t _ _ (s.issue_streamFrom_of_lt caller input off hoff) h
    · rw [stepCall_streamFrom_of_le s caller input off hoff] at h
      cases h
      exact .inl rfl

/-- The buffer into which the operation whose turn it is writes. -/
def State.nextOut (s : State) : Option Buffer := s.inFlight.head?.bind Call.outBuffer

/-- Every step leaves the ledger in one of the four ways, the buffer being that of the oldest operation. -/
theorem leavesLedger_step (s t : State) (h : step s = .next t) : leavesLedger s.nextOut s t := by
  obtain ⟨-, hs⟩ | ⟨b, -, -, hs⟩ | ⟨c, others, hfly, -, hs⟩ := step_cases s <;> rw [hs] at h
  · cases h
    exact .inl s.ledger_issueNext
  · cases h
  · have hout : s.nextOut = c.outBuffer := by rw [State.nextOut, hfly]; rfl
    rw [hout]
    obtain hl | hl | hl | ⟨b, v, hb, hl⟩ := leavesLedger_stepCall c (s.fly others) t h
    · exact .inl hl
    · exact .inr (.inl hl)
    · exact .inr (.inr (.inl hl))
    · exact .inr (.inr (.inr ⟨b, v, hb, hl.trans (State.ledger_encodeInto_congr _ s v b rfl)⟩))

/-! ## Memory -/

/-- An encode writes nothing, or the encoding into a buffer of at least nine bytes. -/
theorem State.encodeInto_memory_cases (s : State) (v : Value) (out : Buffer) :
    (s.encodeInto v out).memory = s.memory ∨
    (9 ≤ out.len ∧ (s.encodeInto v out).memory = s.memory.writeBytes out.base (encodeValue v).written) := by
  rcases Nat.lt_or_ge out.len 9 with hlen | hlen
  · exact .inl (by rw [State.encodeInto_of_short s v out hlen]; rfl)
  · exact .inr ⟨hlen, by rw [State.encodeInto_of_long s v out hlen]; rfl⟩

/-- A step leaves memory as it was, or writes one encoding into the buffer of the oldest operation. -/
theorem step_memory_cases (s t : State) (h : step s = .next t) :
    t.memory = s.memory ∨ ∃ b v, s.nextOut = some b ∧ 9 ≤ b.len ∧
      t.memory = s.memory.writeBytes b.base (encodeValue v).written := by
  obtain hl | hl | ⟨r, hl⟩ | ⟨b, v, hb, hl⟩ := leavesLedger_step s t h <;>
    have hm := congrArg Ledger.memory hl
  · exact .inl hm
  · exact .inl hm
  · exact .inl hm
  · obtain hq | ⟨hlen, hw⟩ := s.encodeInto_memory_cases v b
    · exact .inl (hm.trans hq)
    · exact .inr ⟨b, v, hb, hlen, hm.trans hw⟩

/-- Settles O43: a write of an encoding keeps the canonical form. -/
theorem stepKeepsMemoryCanonical : Obligations.StepKeepsMemoryCanonical := by
  intro s t hwf h
  obtain hm | ⟨b, v, -, -, hm⟩ := step_memory_cases s t h <;> rw [hm]
  · exact hwf
  · exact Memory.wf_writeBytes _ _ _ hwf

/-- Settles O45: an encoding has at most nine bytes. -/
theorem stepWritesOnlyTheOutputBuffer : Obligations.StepWritesOnlyTheOutputBuffer := by
  intro s t a h houtside
  obtain hm | ⟨b, v, hb, hlen, hm⟩ := step_memory_cases s t h <;> rw [hm]
  obtain ⟨c, hc, hcb⟩ := Option.bind_eq_some_iff.1 hb
  obtain ⟨others, hfly⟩ := List.head?_eq_some_iff.1 hc
  have ha := houtside c others b hfly hcb
  have hnine := (selectClass v).len_le_nine
  apply Memory.read_writeBytes_of_outside
  rw [EncResult.length_written]
  omega

/-- Settles O2: memory lists nothing at reset. -/
theorem resetMemoryCanonical : Obligations.ResetMemoryCanonical := by
  have hempty : State.reset.memory = [] := rfl
  rw [Obligations.ResetMemoryCanonical, hempty]
  rfl

/-! ## Marks and responses -/

/-- An encode keeps the marks, records its fault behind a recorded one, and answers at most once. -/
theorem State.encodeInto_marks (s : State) (v : Value) (out : Buffer) :
    (∀ f, s.fault = some f → (s.encodeInto v out).fault = some f) ∧
    (s.encodeInto v out).refused = s.refused ∧
    ∃ l : List Response, l.length ≤ 1 ∧ (s.encodeInto v out).responses = s.responses ++ l := by
  rcases Nat.lt_or_ge out.len 9 with hlen | hlen
  · rw [State.encodeInto_of_short s v out hlen]
    exact ⟨fun f hf => by rw [State.recordFault_fault, hf]; rfl, rfl, [], by simp, by simp⟩
  · rw [State.encodeInto_of_long s v out hlen]
    exact ⟨fun f hf => hf, rfl, [_], le_rfl, rfl⟩

/-- Settles O44: none of the four ways clears a mark or takes back a response. -/
theorem marksAreNeverCleared : Obligations.MarksAreNeverCleared := by
  intro s t h
  obtain hl | hl | ⟨r, hl⟩ | ⟨b, v, -, hl⟩ := leavesLedger_step s t h <;>
    have hfault := congrArg Ledger.fault hl <;>
    have hrefused := congrArg Ledger.refused hl <;>
    have hresponses := congrArg Ledger.responses hl
  · exact ⟨fun f hf => hfault.trans hf, fun hr => hrefused.trans hr, [], by simp,
      hresponses.trans (List.append_nil _).symm⟩
  · exact ⟨fun f hf => hfault.trans hf, fun _ => hrefused, [], by simp,
      hresponses.trans (List.append_nil _).symm⟩
  · exact ⟨fun f hf => hfault.trans hf, fun hr => hrefused.trans hr, [r], le_rfl, hresponses⟩
  · obtain ⟨hf', hr', l, hlen, hl'⟩ := s.encodeInto_marks v b
    exact ⟨fun f hf => hfault.trans (hf' f hf), fun hr => hrefused.trans (hr'.trans hr), l, hlen,
      hresponses.trans hl'⟩

end Sys2Proof.Machine
end

section
/-! The callers' protocols (70_reset_and_hazards.md R197). One lemma per protocol says what a step of it leaves:
the operations then in flight, the memory, and the response. The runs are chains of such steps. -/

namespace Sys2Proof.Machine

/-! ## What steps of a protocol leave -/

/-- From `s` to `t`, with this memory, these operations in flight and these further responses; the marks and the
operations still to be issued are as before. -/
structure Answered (s t : State) (m : Memory) (calls : List Call) (l : List Response) : Prop where
  memory : t.memory = m
  inFlight : t.inFlight = calls
  responses : t.responses = s.responses ++ l
  upcoming : t.upcoming = s.upcoming
  fault : t.fault = s.fault
  refused : t.refused = s.refused

theorem Answered.trans {s t u : State} {m m' : Memory} {calls calls' : List Call} {l l' : List Response}
    (h : Answered s t m calls l) (h' : Answered t u m' calls' l') : Answered s u m' calls' (l ++ l') where
  memory := h'.memory
  inFlight := h'.inFlight
  responses := by rw [h'.responses, h.responses, List.append_assoc]
  upcoming := h'.upcoming.trans h.upcoming
  fault := h'.fault.trans h.fault
  refused := h'.refused.trans h.refused

/-- With nothing in flight and nothing to be issued the run has finished. -/
theorem Answered.finished {s t : State} {m : Memory} {l : List Response} (h : Answered s t m [] l)
    (hup : s.upcoming = []) : t.finished = true := by
  simp [State.finished, h.inFlight, h.upcoming, hup]

/-- A decode that was alone in flight, answered: nothing is in flight until its caller goes on. -/
theorem answered_answerDecode (s : State) (b : Buffer) :
    Answered s ((s.fly []).answerDecode b) s.memory [] [.dec (s.bufferAnswer b)] :=
  ⟨rfl, rfl, rfl, rfl, rfl, rfl⟩

/-- A caller that issues its next operation, under a condition, puts it in flight. -/
theorem Answered.reissue_if {s t : State} {m : Memory} {l : List Response} (h : Answered s t m [] l)
    (P : Prop) [Decidable P] (c : Call) :
    Answered s (if P then t.reissue c else t) m (if P then [c] else []) l := by
  split_ifs
  · exact ⟨h.memory, congrArg (· ++ [c]) h.inFlight, h.responses, h.upcoming, h.fault, h.refused⟩
  · exact h

/-- An operation alone in flight has its turn. -/
theorem step_of_singleton (s : State) (c : Call) (h : s.inFlight = [c]) : step s = stepCall c (s.fly []) :=
  step_of_cons s c [] h (by rw [h, sharedBuffer_singleton])

/-! ## The stream protocol -/

/-- The stream goes on after a success that leaves bytes. -/
theorem State.continueStream_eq (s : State) (caller : Nat) (input : Buffer) (off : Nat) :
    s.continueStream caller input off =
      if s.decOk = true ∧ off + s.decLen.toNat < input.len then
        s.reissue ⟨caller, .streamFrom input (off + s.decLen.toNat)⟩
      else s := by
  simp only [State.continueStream, ite_and]

/-- A stream that is not at its end answers for what is left, and goes on behind the decoded bytes if any are
left then. -/
theorem step_streamFrom (s : State) (caller : Nat) (input : Buffer) (off : Nat) (r : DecResult)
    (hfly : s.inFlight = [⟨caller, .streamFrom input off⟩]) (hoff : off < input.len)
    (hr : s.bufferAnswer (input.drop off) = r) :
    ∃ t, step s = .next t ∧ Answered s t s.memory
      (if r.ok = true ∧ off + r.len.toNat < input.len then [⟨caller, .streamFrom input (off + r.len.toNat)⟩]
        else []) [.dec r] := by
  subst hr
  refine ⟨((s.fly []).answerDecode (input.drop off)).continueStream caller input off, ?_, ?_⟩
  · rw [step_of_singleton s _ hfly,
      stepCall_of_issueDecode _ _ _ ((s.fly []).issue_streamFrom_of_lt caller input off hoff)]
    rfl
  · rw [State.continueStream_eq]
    exact (answered_answerDecode s _).reissue_if _ _

/-- The decoder never reports success with length 0. -/
theorem len_pos_of_ok (a : Count) (w : Lanes) (h : (decodeWindow a w).ok = true) :
    0 < (decodeWindow a w).len.toNat := by
  rw [decodeWindow_of_le a w (len_le_of_decodeWindow_ok a w h), LengthClass.toNat_count]
  exact LengthClass.len_pos _

/-- A stream with at most `k` bytes left ends within `k` steps, since each step that goes on consumes a byte. -/
theorem stream_ends (caller : Nat) (input : Buffer) (k off : Nat) (s : State)
    (hfly : s.inFlight = [⟨caller, .streamFrom input off⟩]) (hup : s.upcoming = [])
    (hoff : off < input.len) (hk : input.len - off ≤ k) :
    ∃ n t, n ≤ k ∧ core.run n s = .next t ∧ t.finished = true ∧ t.memory = s.memory := by
  induction k generalizing off s with
  | zero => omega
  | succ k ih =>
    obtain ⟨t, hstep, ht⟩ := step_streamFrom s caller input off _ hfly hoff rfl
    split_ifs at ht with hmore
    · have hpos := len_pos_of_ok _ _ hmore.1
      obtain ⟨n, u, hn, hrun, hfin, hmem⟩ :=
        ih _ t ht.inFlight (ht.upcoming.trans hup) hmore.2 (by unfold State.bufferAnswer; omega)
      exact ⟨n + 1, u, Nat.succ_le_succ hn, (core_run_succ n s t hstep).trans hrun, hfin,
        hmem.trans ht.memory⟩
    · exact ⟨1, t, by omega, core_run_succ 0 s t hstep, ht.finished hup, ht.memory⟩

/-- Settles O46: a stream over no bytes takes one step, any other is bounded by its bytes. -/
theorem streamEndsWithinItsLength : Obligations.StreamEndsWithinItsLength := by
  intro s caller input hfly hup
  rcases Nat.eq_zero_or_pos input.len with hlen | hlen
  · have hstep : step s = .next (s.fly []) := by
      rw [step_of_singleton s _ hfly, stepCall_streamFrom_of_le _ caller input 0 hlen.le]
    refine ⟨1, s.fly [], le_max_left _ _, core_run_succ 0 s _ hstep, ?_, rfl⟩
    simp [State.finished, hup]
  · obtain ⟨n, t, hn, hrun⟩ := stream_ends caller input input.len 0 s hfly hup hlen le_rfl
    exact ⟨n, t, hn.trans (le_max_right _ _), hrun⟩

/-! ## Concatenated encodings -/

@[simp] theorem concatEncodings_nil : concatEncodings [] = [] := rfl

theorem concatEncodings_cons (v : Value) (vs : List Value) :
    concatEncodings (v :: vs) = (encodeValue v).written ++ concatEncodings vs := rfl

/-- No encoding is empty. -/
theorem concatEncodings_eq_nil_iff (vs : List Value) : concatEncodings vs = [] ↔ vs = [] := by
  cases vs with
  | nil => simp
  | cons v vs => simp [concatEncodings_cons, written_eq]

/-- Bytes that stand one string after the other. -/
theorem Memory.holds_append_iff (m : Memory) (x : Nat) (bs cs : List Byte) :
    m.holds x (bs ++ cs) ↔ m.holds x bs ∧ m.holds (x + bs.length) cs := by
  constructor
  · intro h
    refine ⟨fun i hi => ?_, fun i hi => ?_⟩
    · rw [h i (by rw [List.length_append]; omega), List.getD_append _ _ _ _ hi]
    · rw [Nat.add_assoc, h (bs.length + i) (by rw [List.length_append]; omega),
        List.getD_append_right _ _ _ _ (Nat.le_add_right _ _), Nat.add_sub_cancel_left]
  · rintro ⟨hbs, hcs⟩ i hi
    rw [List.length_append] at hi
    rcases Nat.lt_or_ge i bs.length with hlt | hge
    · rw [hbs i hlt, List.getD_append _ _ _ _ hlt]
    · rw [List.getD_append_right _ _ _ _ hge, ← hcs (i - bs.length) (by omega), Nat.add_assoc,
        Nat.add_sub_cancel' hge]

/-- A stream whose rest is a concatenation of encodings answers the values, one step for each. -/
theorem stream_decodes (caller : Nat) (input : Buffer) (vs : List Value) (off : Nat) (s : State)
    (hvs : vs ≠ []) (hfly : s.inFlight = [⟨caller, .streamFrom input off⟩])
    (hlen : input.len = off + (concatEncodings vs).length)
    (hholds : s.memory.holds (input.base + off) (concatEncodings vs)) :
    ∃ t, core.run vs.length s = .next t ∧ Answered s t s.memory [] (vs.map decodedOk) := by
  induction vs generalizing off s with
  | nil => exact absurd rfl hvs
  | cons v vs ih =>
    rw [concatEncodings_cons, Memory.holds_append_iff, EncResult.length_written] at hholds
    rw [concatEncodings_cons, List.length_append, EncResult.length_written] at hlen
    obtain ⟨hfirst, hrest⟩ := hholds
    have hpos := (selectClass v).len_pos
    have hanswer := bufferAnswer_of_holds s (input.drop off) v
      (by rw [EncResult.length_written]; simp only [Buffer.drop]; omega) hfirst
    obtain ⟨t, hstep, ht⟩ := step_streamFrom s caller input off _ hfly (by omega) hanswer
    rw [encodeValue_len] at ht
    cases vs with
    | nil =>
      rw [if_neg (by simp [hlen])] at ht
      exact ⟨t, core_run_succ 0 s t hstep, ht⟩
    | cons v' vs =>
      have hmore : 0 < (concatEncodings (v' :: vs)).length := by
        rw [List.length_pos_iff, ne_eq, concatEncodings_eq_nil_iff]
        exact List.cons_ne_nil _ _
      rw [if_pos ⟨rfl, by omega⟩] at ht
      obtain ⟨u, hrun, hu⟩ := ih _ t (List.cons_ne_nil _ _) ht.inFlight (by omega)
        (by rw [ht.memory, ← Nat.add_assoc]; exact hrest)
      rw [ht.memory] at hu
      exact ⟨u, (core_run_succ _ s t hstep).trans hrun, ht.trans hu⟩

/-- Settles O47: the stream that starts at offset 0. -/
theorem streamDecodesConcatenation : Obligations.StreamDecodesConcatenation := by
  intro s caller input vs hvs hfly hup hlen hholds
  obtain ⟨t, hrun, ht⟩ := stream_decodes caller input vs 0 s hvs hfly (by rw [hlen, Nat.zero_add]) hholds
  exact ⟨t, hrun, ht.finished hup, ht.responses, ht.memory, ht.fault, ht.refused⟩

/-! ## The encoding of a sequence -/

/-- `m'` is `m` with these bytes put at `x`, `x + 1`, … -/
def Memory.overwritten (m m' : Memory) (x : Nat) (bs : List Byte) : Prop :=
  m'.holds x bs ∧ ∀ a, ¬ (x ≤ a ∧ a < x + bs.length) → m'.read a = m.read a

theorem Memory.overwritten_writeBytes (m : Memory) (x : Nat) (bs : List Byte) (h : m.wf = true) :
    m.overwritten (m.writeBytes x bs) x bs :=
  ⟨fun i hi => m.read_writeBytes_inside x i bs h hi, fun a ha => m.read_writeBytes_of_outside x a bs ha⟩

/-- Two writes, the second right behind the first, are one write of both strings. -/
theorem Memory.overwritten_append (m₀ m₁ m₂ : Memory) (x : Nat) (bs cs : List Byte)
    (h₁ : m₀.overwritten m₁ x bs) (h₂ : m₁.overwritten m₂ (x + bs.length) cs) :
    m₀.overwritten m₂ x (bs ++ cs) := by
  obtain ⟨hbs, hkeep₁⟩ := h₁
  obtain ⟨hcs, hkeep₂⟩ := h₂
  refine ⟨(Memory.holds_append_iff _ _ _ _).2 ⟨fun i hi => ?_, hcs⟩, fun a ha => ?_⟩
  · rw [hkeep₂ (x + i) (by omega), hbs i hi]
  · rw [List.length_append] at ha
    rw [hkeep₂ a (by omega), hkeep₁ a (by omega)]

/-- A sequence encodes its first value into a buffer of nine bytes or more, and goes on with the other values
behind it. -/
theorem step_encodeSeq (s : State) (caller : Nat) (v : Value) (rest : List Value) (out : Buffer)
    (hfly : s.inFlight = [⟨caller, .encodeSeq (v :: rest) out⟩]) (hlen : 9 ≤ out.len) :
    ∃ t, step s = .next t ∧ Answered s t (s.memory.writeBytes out.base (encodeValue v).written)
      (if rest = [] then [] else [⟨caller, .encodeSeq rest (out.drop (encodeValue v).len.toNat)⟩])
      [.wrote (encodeValue v).len] := by
  have hanswered : Answered s (((s.fly []).attach (some out)).encodeInto v out)
      (s.memory.writeBytes out.base (encodeValue v).written) [] [.wrote (encodeValue v).len] := by
    rw [State.encodeInto_of_long _ v out hlen]
    exact ⟨rfl, rfl, rfl, rfl, rfl, rfl⟩
  refine ⟨_, (step_of_singleton s _ hfly).trans (stepCall_encodeSeq _ caller v rest out), ?_⟩
  simp only [State.followUp, State.continueSeq, Config.maxEncodedLen, Nat.not_lt.2 hlen, if_false]
  cases rest with
  | nil => exact hanswered
  | cons v' rest => exact hanswered.reissue_if True _

/-- A sequence with nine bytes for each value writes the concatenated encodings, one step for each value. -/
theorem sequence_encodes (caller : Nat) (vs : List Value) (out : Buffer) (s : State)
    (hvs : vs ≠ []) (hfly : s.inFlight = [⟨caller, .encodeSeq vs out⟩])
    (hlen : 9 * vs.length ≤ out.len) (hwf : s.memory.wf = true) :
    ∃ t m, core.run vs.length s = .next t ∧
      Answered s t m [] (vs.map fun v => .wrote (encodeValue v).len) ∧
      s.memory.overwritten m out.base (concatEncodings vs) := by
  induction vs generalizing out s with
  | nil => exact absurd rfl hvs
  | cons v vs ih =>
    rw [List.length_cons] at hlen
    have hwrite := s.memory.overwritten_writeBytes out.base (encodeValue v).written hwf
    obtain ⟨t, hstep, ht⟩ := step_encodeSeq s caller v vs out hfly (by omega)
    cases vs with
    | nil =>
      refine ⟨t, _, core_run_succ 0 s t hstep, ht, ?_⟩
      rwa [concatEncodings_cons, concatEncodings_nil, List.append_nil]
    | cons v' vs =>
      rw [if_neg (List.cons_ne_nil _ _)] at ht
      have hnine := (selectClass v).len_le_nine
      obtain ⟨u, m, hrun, hu, hm⟩ := ih _ t (List.cons_ne_nil _ _) ht.inFlight
        (by rw [encodeValue_len]; simp only [Buffer.drop]; omega)
        (by rw [ht.memory]; exact Memory.wf_writeBytes _ _ _ hwf)
      refine ⟨u, m, (core_run_succ _ s t hstep).trans hrun, ht.trans hu, ?_⟩
      rw [ht.memory, Buffer.drop, encodeValue_len, ← EncResult.length_written] at hm
      rw [concatEncodings_cons]
      exact Memory.overwritten_append _ _ _ _ _ _ hwrite hm

/-- Settles O48: what the run has written is the concatenation. -/
theorem sequenceEncodesConcatenation : Obligations.SequenceEncodesConcatenation := by
  intro s caller out vs hvs hfly hup hlen hwf
  obtain ⟨t, m, hrun, ht, hholds, hkeep⟩ := sequence_encodes caller vs out s hvs hfly hlen hwf
  obtain rfl := ht.memory
  exact ⟨t, hrun, ht.finished hup, ht.responses, hholds, hkeep, ht.fault, ht.refused⟩

/-! ## The retry protocol -/

/-- The caller asks again after insufficient input if its source has the required bytes. -/
theorem State.continueRetry_eq (s : State) (caller : Nat) (input : Buffer) :
    s.continueRetry caller input =
      if s.decOk = false ∧ s.decNeed.toNat ≤ input.len then
        s.reissue ⟨caller, .retryFrom input s.decNeed.toNat⟩
      else s := by
  cases h : s.decOk <;> simp [State.continueRetry, h]

/-- A retry answers for the bytes that have arrived, and asks again with the required number if its source has
them. -/
theorem step_retryFrom (s : State) (caller : Nat) (input : Buffer) (arrived : Nat) (r : DecResult)
    (hfly : s.inFlight = [⟨caller, .retryFrom input arrived⟩])
    (hr : s.bufferAnswer (input.take arrived) = r) :
    ∃ t, step s = .next t ∧ Answered s t s.memory
      (if r.ok = false ∧ r.need.toNat ≤ input.len then [⟨caller, .retryFrom input r.need.toNat⟩] else [])
      [.dec r] := by
  subst hr
  refine ⟨((s.fly []).answerDecode (input.take arrived)).continueRetry caller input, ?_, ?_⟩
  · rw [step_of_singleton s _ hfly, stepCall_of_issueDecode _ _ (input.take arrived) rfl]
    rfl
  · rw [State.continueRetry_eq]
    exact (answered_answerDecode s _).reissue_if _ _

section
variable (v : Value) (input : Buffer) (caller : Nat) (s : State)
  (hlen : (encodeValue v).written.length ≤ input.len)
  (hholds : s.memory.holds input.base (encodeValue v).written)
include hlen hholds

/-- On a source that starts with an encoding, the bytes that have arrived are answered like the encoder's own. -/
theorem bufferAnswer_take (n : Nat) (hn : n ≤ (selectClass v).len) :
    s.bufferAnswer (input.take n) = decodeWindow (availOf n) (encodeValue v).bytes := by
  rw [EncResult.length_written] at hlen
  have htake : (input.take n).len = n := Nat.min_eq_left (hn.trans hlen)
  rw [bufferAnswer_of_prefix s (input.take n) v fun i hi =>
    hholds i (by rw [EncResult.length_written]; omega), htake]

/-- Once all bytes of the encoding have arrived, the retry answers the value and ends. -/
theorem retry_of_all (hfly : s.inFlight = [⟨caller, .retryFrom input (selectClass v).len⟩]) :
    ∃ t, step s = .next t ∧ Answered s t s.memory [] [decodedOk v] := by
  have hnine := (selectClass v).len_le_nine
  have hanswer := bufferAnswer_take v input s hlen hholds _ le_rfl
  rw [decodeWindow_encodeValue v _ (by rw [encodeValue_len, toNat_availOf]; omega)] at hanswer
  exact step_retryFrom s caller input _ _ hfly hanswer

/-- With one byte of a longer encoding, the retry answers the length and asks again with that many bytes. -/
theorem retry_of_one (hfly : s.inFlight = [⟨caller, .retryFrom input 1⟩]) (hlong : 1 < (selectClass v).len) :
    ∃ t, step s = .next t ∧ Answered s t s.memory [⟨caller, .retryFrom input (selectClass v).len⟩]
      [.dec ⟨false, 0#64, 0#4, (encodeValue v).len⟩] := by
  have hanswer := bufferAnswer_take v input s hlen hholds 1 hlong.le
  rw [(truncatedEncodingReportsNeed v (availOf 1)).1
    ⟨by decide, by rw [encodeValue_len]; exact hlong⟩] at hanswer
  obtain ⟨t, hstep, ht⟩ := step_retryFrom s caller input 1 _ hfly hanswer
  rw [EncResult.length_written] at hlen
  rw [if_pos ⟨rfl, by rwa [encodeValue_len]⟩, encodeValue_len] at ht
  exact ⟨t, hstep, ht⟩

/-- With nothing arrived, the retry answers that one byte is needed and asks again with one byte. -/
theorem retry_of_none (hfly : s.inFlight = [⟨caller, .retryFrom input 0⟩]) :
    ∃ t, step s = .next t ∧ Answered s t s.memory [⟨caller, .retryFrom input 1⟩]
      [.dec ⟨false, 0#64, 0#4, 1#4⟩] := by
  have hanswer := bufferAnswer_take v input s hlen hholds 0 (Nat.zero_le _)
  rw [(truncatedEncodingReportsNeed v (availOf 0)).2 rfl] at hanswer
  obtain ⟨t, hstep, ht⟩ := step_retryFrom s caller input 0 _ hfly hanswer
  have hpos := (selectClass v).len_pos
  rw [EncResult.length_written] at hlen
  rw [if_pos ⟨rfl, hpos.trans hlen⟩] at ht
  exact ⟨t, hstep, ht⟩

end

/-- The 4-bit length is 1 exactly for an encoding of one byte. -/
theorem encodeValue_len_eq_one_iff (v : Value) : (encodeValue v).len = 1#4 ↔ (selectClass v).len = 1 := by
  rw [← BitVec.toNat_inj, encodeValue_len, BitVec.toNat_ofNat]

/-- Settles O49: one byte is asked for, then the length if it is longer, then the value is there. -/
theorem retryObtainsTheValue : Obligations.RetryObtainsTheValue := by
  intro s caller input v hfly hup hlen hholds
  obtain ⟨t₁, hstep₁, ht₁⟩ := retry_of_none v input caller s hlen hholds hfly
  have hholds₁ : t₁.memory.holds input.base (encodeValue v).written := ht₁.memory ▸ hholds
  by_cases hone : (encodeValue v).len = 1#4
  · rw [if_pos hone, if_pos hone, List.append_nil]
    rw [encodeValue_len_eq_one_iff] at hone
    obtain ⟨t₂, hstep₂, ht₂⟩ :=
      retry_of_all v input caller t₁ hlen hholds₁ (hone ▸ ht₁.inFlight)
    have ht := ht₁.trans ht₂
    refine ⟨t₂, (core_run_succ 1 s t₁ hstep₁).trans (core_run_succ 0 t₁ t₂ hstep₂),
      ht.finished hup, ?_, ht.memory.trans ht₁.memory, ht.fault, ht.refused⟩
    rw [ht.responses, List.append_assoc]
  · rw [if_neg hone, if_neg hone]
    rw [encodeValue_len_eq_one_iff] at hone
    have hlong : 1 < (selectClass v).len := lt_of_le_of_ne (selectClass v).len_pos (Ne.symm hone)
    obtain ⟨t₂, hstep₂, ht₂⟩ := retry_of_one v input caller t₁ hlen hholds₁ ht₁.inFlight hlong
    have hholds₂ : t₂.memory.holds input.base (encodeValue v).written := ht₂.memory ▸ hholds₁
    obtain ⟨t₃, hstep₃, ht₃⟩ := retry_of_all v input caller t₂ hlen hholds₂ ht₂.inFlight
    have ht := (ht₁.trans ht₂).trans ht₃
    refine ⟨t₃, (core_run_succ 2 s t₁ hstep₁).trans
        ((core_run_succ 1 t₁ t₂ hstep₂).trans (core_run_succ 0 t₂ t₃ hstep₃)), ht.finished hup, ?_,
      ht.memory.trans (ht₂.memory.trans ht₁.memory), ht.fault, ht.refused⟩
    rw [ht.responses]
    simp only [List.append_assoc]

end Sys2Proof.Machine
end
